-- ==== Sys2Proof/Word.lean ====
section
/-! DEFINITION. The word and byte types of the Z16 core and the two readings of a word (00_scope.md R6, R7, R8). -/

namespace Sys2Proof

/-- A 16-bit register value, address or instruction word (R5 `XLEN`, R7 `u16`). -/
abbrev Word := BitVec 16

/-- One memory cell (R7, R30). -/
abbrev Byte := BitVec 8

/-- `u16(n) = n mod 65536`, the non-negative residue of a mathematical integer (R7). -/
def u16 (n : Int) : Word := BitVec.ofInt 16 n

/-- `signed(v)`: the two's-complement reading of a word (R7). -/
def signed (v : Word) : Int := v.toInt

end Sys2Proof
end

