-- ==== Sys2Proof/Machine/Flags.lean ====
section
/-! DEFINITION. The core has no flags (10_state.md R18): a comparison gives 1 or 0 for a register, or a condition for the branch
that makes it. These are the comparisons (40_engine.md R92) and the branch conditions (43_b_type.md R150). -/

namespace Sys2Proof.Machine

/-- `signed(a) < signed(b)` (R92). -/
def lessSigned (a b : Word) : Bool := decide (signed a < signed b)

/-- `a < b` as unsigned integers (R92). -/
def lessUnsigned (a b : Word) : Bool := decide (a.toNat < b.toNat)

/-- The 16-bit value `0x0001` or `0x0000` of a comparison (R92). -/
def boolWord (b : Bool) : Word := if b then 1#16 else 0#16

/-- `LTS(a, b)` (R92). -/
def aluLTS (a b : Word) : Word := boolWord (lessSigned a b)

/-- `LTU(a, b)` (R92). -/
def aluLTU (a b : Word) : Word := boolWord (lessUnsigned a b)

/-- `x[rs1] == x[rs2]` (R150, `beq`). -/
def condEq (a b : Word) : Bool := decide (a = b)

/-- `x[rs1] != x[rs2]` (R150, `bne`). -/
def condNe (a b : Word) : Bool := !condEq a b

/-- `x[rs1] == 0` (R150, `bz`). -/
def condZero (a : Word) : Bool := decide (a = 0#16)

/-- `x[rs1] != 0` (R150, `bnz`). -/
def condNotZero (a : Word) : Bool := !condZero a

/-- Signed less than (R150, `blt`). -/
def condLt (a b : Word) : Bool := lessSigned a b

/-- Signed greater or equal (R150, `bge`). -/
def condGe (a b : Word) : Bool := !lessSigned a b

/-- Unsigned less than (R150, `bltu`). -/
def condLtu (a b : Word) : Bool := lessUnsigned a b

/-- Unsigned greater or equal (R150, `bgeu`). -/
def condGeu (a b : Word) : Bool := !lessUnsigned a b

end Sys2Proof.Machine
end

