-- ==== Sys2Proof/Syntax.lean ====
section
/-! DEFINITION. The instructions: one constructor of `Instr` per row of the opcode map 30_encoding.md R60, in its order.
Register fields are named registers (10_state.md R11). Immediates are the mathematical integers the instruction rules use
(00_scope.md R8, `sext_N`); their ranges are checked in WellFormed.lean (log 22). Ignored fields (R67) are no operands (log 15). -/

namespace Sys2Proof

/-- The eight general registers by their ABI names, in index order (R10, R11). -/
inductive Reg where
  | t0 | ra | sp | s0 | s1 | t1 | a0 | a1
  deriving DecidableEq, Repr

/-- The 41 instructions of R60. -/
inductive Instr where
  /-- R100 -/
  | add (rd_rs1 rs2 : Reg)
  /-- R101 -/
  | sub (rd_rs1 rs2 : Reg)
  /-- R102 -/
  | slt (rd_rs1 rs2 : Reg)
  /-- R103 -/
  | sltu (rd_rs1 rs2 : Reg)
  /-- R104 -/
  | sll (rd_rs1 rs2 : Reg)
  /-- R105 -/
  | srl (rd_rs1 rs2 : Reg)
  /-- R106 -/
  | sra (rd_rs1 rs2 : Reg)
  /-- R107 -/
  | or (rd_rs1 rs2 : Reg)
  /-- R108 -/
  | and (rd_rs1 rs2 : Reg)
  /-- R109 -/
  | xor (rd_rs1 rs2 : Reg)
  /-- R110 -/
  | mv (rd_rs1 rs2 : Reg)
  /-- R112; its `rs2` field is ignored (R67) -/
  | jr (rd_rs1 : Reg)
  /-- R113 -/
  | jalr (rd_rs1 rs2 : Reg)
  /-- R120 -/
  | addi (rd_rs1 : Reg) (simm : Int)
  /-- R121 -/
  | slti (rd_rs1 : Reg) (simm : Int)
  /-- R122 -/
  | sltui (rd_rs1 : Reg) (simm : Int)
  /-- R123 -/
  | slli (rd_rs1 : Reg) (shamt : Nat)
  /-- R124 -/
  | srli (rd_rs1 : Reg) (shamt : Nat)
  /-- R125 -/
  | srai (rd_rs1 : Reg) (shamt : Nat)
  /-- R126 -/
  | ori (rd_rs1 : Reg) (simm : Int)
  /-- R127 -/
  | andi (rd_rs1 : Reg) (simm : Int)
  /-- R128 -/
  | xori (rd_rs1 : Reg) (simm : Int)
  /-- R129 -/
  | li (rd_rs1 : Reg) (simm : Int)
  /-- R141 -/
  | beq (rs1 rs2 : Reg) (boff : Int)
  /-- R142 -/
  | bne (rs1 rs2 : Reg) (boff : Int)
  /-- R143; its `rs2` field is ignored (R67) -/
  | bz (rs1 : Reg) (boff : Int)
  /-- R144; its `rs2` field is ignored (R67) -/
  | bnz (rs1 : Reg) (boff : Int)
  /-- R145 -/
  | blt (rs1 rs2 : Reg) (boff : Int)
  /-- R146 -/
  | bge (rs1 rs2 : Reg) (boff : Int)
  /-- R147 -/
  | bltu (rs1 rs2 : Reg) (boff : Int)
  /-- R148 -/
  | bgeu (rs1 rs2 : Reg) (boff : Int)
  /-- R161: value register, base register, offset -/
  | sb (rs2 rs1 : Reg) (moff : Int)
  /-- R162: value register, base register, offset -/
  | sw (rs2 rs1 : Reg) (moff : Int)
  /-- R171: destination, base register, offset -/
  | lb (rd rs2 : Reg) (moff : Int)
  /-- R172: destination, base register, offset -/
  | lw (rd rs2 : Reg) (moff : Int)
  /-- R173: destination, base register, offset -/
  | lbu (rd rs2 : Reg) (moff : Int)
  /-- R181; its `rd` field is ignored (R67) -/
  | j (jimm : Int)
  /-- R182 -/
  | jal (rd : Reg) (jimm : Int)
  /-- R191 -/
  | lui (rd : Reg) (uimm9 : Nat)
  /-- R192 -/
  | auipc (rd : Reg) (uimm9 : Nat)
  /-- R200 -/
  | ecall (service : Nat)
  deriving DecidableEq, Repr

end Sys2Proof
end

