-- ==== Sys2Proof/WellFormed.lean ====
section
/-! DEFINITION. Which instructions have an encoding: every immediate lies in the range its field gives (30_encoding.md R61 to R66,
R59). Register fields need no check (10_state.md R10). -/

namespace Sys2Proof

/-- `simm = sext_7(imm7)`, -64 ... 63 (R61). -/
def simm7InRange (n : Int) : Bool := decide (-64 ≤ n) && decide (n ≤ 63)

/-- `shamt = w[12:9]`, 0 ... 15 (R62). -/
def shamtInRange (n : Nat) : Bool := decide (n ≤ 15)

/-- `boff` and `moff = sext_4(off4)`, -8 ... 7 (R63, R64). -/
def off4InRange (n : Int) : Bool := decide (-8 ≤ n) && decide (n ≤ 7)

/-- `jimm = sext_9(imm9)`, -256 ... 255 (R65). -/
def jimm9InRange (n : Int) : Bool := decide (-256 ≤ n) && decide (n ≤ 255)

/-- `uimm9`, 0 ... 511 (R66). -/
def uimm9InRange (n : Nat) : Bool := decide (n ≤ 511)

/-- `service = w[15:6]`, 0 ... 1023 (R59). -/
def serviceInRange (n : Nat) : Bool := decide (n ≤ 1023)

/-- The instruction has an encoding. -/
def Instr.wellFormed : Instr → Bool
  | .add _ _ => true
  | .sub _ _ => true
  | .slt _ _ => true
  | .sltu _ _ => true
  | .sll _ _ => true
  | .srl _ _ => true
  | .sra _ _ => true
  | .or _ _ => true
  | .and _ _ => true
  | .xor _ _ => true
  | .mv _ _ => true
  | .jr _ => true
  | .jalr _ _ => true
  | .addi _ n => simm7InRange n
  | .slti _ n => simm7InRange n
  | .sltui _ n => simm7InRange n
  | .slli _ n => shamtInRange n
  | .srli _ n => shamtInRange n
  | .srai _ n => shamtInRange n
  | .ori _ n => simm7InRange n
  | .andi _ n => simm7InRange n
  | .xori _ n => simm7InRange n
  | .li _ n => simm7InRange n
  | .beq _ _ n => off4InRange n
  | .bne _ _ n => off4InRange n
  | .bz _ n => off4InRange n
  | .bnz _ n => off4InRange n
  | .blt _ _ n => off4InRange n
  | .bge _ _ n => off4InRange n
  | .bltu _ _ n => off4InRange n
  | .bgeu _ _ n => off4InRange n
  | .sb _ _ n => off4InRange n
  | .sw _ _ n => off4InRange n
  | .lb _ _ n => off4InRange n
  | .lw _ _ n => off4InRange n
  | .lbu _ _ n => off4InRange n
  | .j n => jimm9InRange n
  | .jal _ n => jimm9InRange n
  | .lui _ n => uimm9InRange n
  | .auipc _ n => uimm9InRange n
  | .ecall n => serviceInRange n

end Sys2Proof
end

