-- ==== Sys2Proof/Decode.lean ====
section
/-! DEFINITION. The decoder and the encoder, both from the field layouts 30_encoding.md R50 to R67, and the opcode map R60 as
a table of masks. Every word is an instruction or is rejected by name as an unknown encoding (R68). -/

namespace Sys2Proof

/-- Why bytes are no instruction. -/
inductive DecodeError where
  /-- a word that matches no row of R60 (R68); the machine steps over it (R86) -/
  | unknownEncoding (w : Word)
  /-- not the two bytes that every instruction has (R50) -/
  | notTwoBytes
  deriving DecidableEq, Repr

/-- The register that a 3-bit field selects (R11). -/
def Reg.ofBits (b : BitVec 3) : Reg :=
  match b.toNat with
  | 0 => .t0
  | 1 => .ra
  | 2 => .sp
  | 3 => .s0
  | 4 => .s1
  | 5 => .t1
  | 6 => .a0
  | _ => .a1

/-- The 3-bit field of a register (R11). -/
def Reg.toBits : Reg → BitVec 3
  | .t0 => 0#3
  | .ra => 1#3
  | .sp => 2#3
  | .s0 => 3#3
  | .s1 => 4#3
  | .t1 => 5#3
  | .a0 => 6#3
  | .a1 => 7#3

/-! The fields of a word (R51 to R59), each read once. -/

/-- `op = w[2:0]` (R51). -/
def opField (w : Word) : BitVec 3 := w.extractLsb' 0 3

/-- `funct3 = w[5:3]`; in the J and U formats `imm3`, `imm_lower` (R52 to R59). -/
def funct3Field (w : Word) : BitVec 3 := w.extractLsb' 3 3

/-- The register in `w[8:6]`: `rd_rs1`, `rs1` or `rd` (R52 to R58). -/
def reg86 (w : Word) : Reg := Reg.ofBits (w.extractLsb' 6 3)

/-- The register in `w[11:9]`: `rs2` (R52, R54 to R56). -/
def reg119 (w : Word) : Reg := Reg.ofBits (w.extractLsb' 9 3)

/-- `funct4 = w[15:12]` (R52). -/
def funct4Field (w : Word) : BitVec 4 := w.extractLsb' 12 4

/-- `simm = sext_7(w[15:9])` (R61). -/
def simmField (w : Word) : Int := (w.extractLsb' 9 7).toInt

/-- `shsel = w[15:13]` (R53, R62). -/
def shselField (w : Word) : BitVec 3 := w.extractLsb' 13 3

/-- `shamt = w[12:9]` (R62). -/
def shamtField (w : Word) : Nat := (w.extractLsb' 9 4).toNat

/-- `sext_4(w[15:12])`: `boff` and `moff` (R63, R64). -/
def off4Field (w : Word) : Int := (w.extractLsb' 12 4).toInt

/-- `f = w[15]` (R57, R58). -/
def fField (w : Word) : BitVec 1 := w.extractLsb' 15 1

/-- `(w[14:9] << 3) | w[5:3]`, the nine immediate bits of the J and U formats (R65, R66). -/
def imm9Field (w : Word) : BitVec 9 := w.extractLsb' 9 6 ++ w.extractLsb' 3 3

/-- `service = w[15:6]` (R59). -/
def serviceField (w : Word) : Nat := (w.extractLsb' 6 10).toNat

/-! One decoder per family, keyed by the selecting fields of R60. -/

/-- R format: `(funct4, funct3)`, both compared in full (R60 rows 1 to 13, R114). -/
def decodeR (w : Word) : Option Instr :=
  match (funct4Field w).toNat, (funct3Field w).toNat with
  | 0, 0 => some (.add (reg86 w) (reg119 w))
  | 1, 0 => some (.sub (reg86 w) (reg119 w))
  | 0, 1 => some (.slt (reg86 w) (reg119 w))
  | 0, 2 => some (.sltu (reg86 w) (reg119 w))
  | 2, 3 => some (.sll (reg86 w) (reg119 w))
  | 4, 3 => some (.srl (reg86 w) (reg119 w))
  | 8, 3 => some (.sra (reg86 w) (reg119 w))
  | 1, 4 => some (.or (reg86 w) (reg119 w))
  | 0, 5 => some (.and (reg86 w) (reg119 w))
  | 0, 6 => some (.xor (reg86 w) (reg119 w))
  | 0, 7 => some (.mv (reg86 w) (reg119 w))
  | 4, 0 => some (.jr (reg86 w))
  | 8, 0 => some (.jalr (reg86 w) (reg119 w))
  | _, _ => none

/-- The shift group of the I format: `shsel` compared in full (R60 rows 17 to 19, R131). -/
def decodeShift (w : Word) : Option Instr :=
  match (shselField w).toNat with
  | 1 => some (.slli (reg86 w) (shamtField w))
  | 2 => some (.srli (reg86 w) (shamtField w))
  | 4 => some (.srai (reg86 w) (shamtField w))
  | _ => none

/-- I format (R60 rows 14 to 23). -/
def decodeI (w : Word) : Option Instr :=
  match (funct3Field w).toNat with
  | 0 => some (.addi (reg86 w) (simmField w))
  | 1 => some (.slti (reg86 w) (simmField w))
  | 2 => some (.sltui (reg86 w) (simmField w))
  | 3 => decodeShift w
  | 4 => some (.ori (reg86 w) (simmField w))
  | 5 => some (.andi (reg86 w) (simmField w))
  | 6 => some (.xori (reg86 w) (simmField w))
  | _ => some (.li (reg86 w) (simmField w))

/-- B format: every word is a branch (R60 rows 24 to 31, R140; log 14). -/
def decodeB (w : Word) : Option Instr :=
  match (funct3Field w).toNat with
  | 0 => some (.beq (reg86 w) (reg119 w) (off4Field w))
  | 1 => some (.bne (reg86 w) (reg119 w) (off4Field w))
  | 2 => some (.bz (reg86 w) (off4Field w))
  | 3 => some (.bnz (reg86 w) (off4Field w))
  | 4 => some (.blt (reg86 w) (reg119 w) (off4Field w))
  | 5 => some (.bge (reg86 w) (reg119 w) (off4Field w))
  | 6 => some (.bltu (reg86 w) (reg119 w) (off4Field w))
  | _ => some (.bgeu (reg86 w) (reg119 w) (off4Field w))

/-- S format: value in `w[11:9]`, base in `w[8:6]` (R55, R60 rows 32, 33, R163). -/
def decodeS (w : Word) : Option Instr :=
  match (funct3Field w).toNat with
  | 0 => some (.sb (reg119 w) (reg86 w) (off4Field w))
  | 1 => some (.sw (reg119 w) (reg86 w) (off4Field w))
  | _ => none

/-- L format: destination in `w[8:6]`, base in `w[11:9]` (R56, R60 rows 34 to 36, R174). -/
def decodeL (w : Word) : Option Instr :=
  match (funct3Field w).toNat with
  | 0 => some (.lb (reg86 w) (reg119 w) (off4Field w))
  | 1 => some (.lw (reg86 w) (reg119 w) (off4Field w))
  | 4 => some (.lbu (reg86 w) (reg119 w) (off4Field w))
  | _ => none

/-- J format: `f` selects (R57, R60 rows 37, 38). -/
def decodeJ (w : Word) : Option Instr :=
  match (fField w).toNat with
  | 0 => some (.j (imm9Field w).toInt)
  | _ => some (.jal (reg86 w) (imm9Field w).toInt)

/-- U format: `f` selects (R58, R60 rows 39, 40). -/
def decodeU (w : Word) : Option Instr :=
  match (fField w).toNat with
  | 0 => some (.lui (reg86 w) (imm9Field w).toNat)
  | _ => some (.auipc (reg86 w) (imm9Field w).toNat)

/-- SYS format: only `funct3` = 000 is an instruction (R59, R60 row 41, R206). -/
def decodeSys (w : Word) : Option Instr :=
  match (funct3Field w).toNat with
  | 0 => some (.ecall (serviceField w))
  | _ => none

/-- The family is chosen by `op` (R51). -/
def decodeFields (w : Word) : Option Instr :=
  match (opField w).toNat with
  | 0 => decodeR w
  | 1 => decodeI w
  | 2 => decodeB w
  | 3 => decodeS w
  | 4 => decodeL w
  | 5 => decodeJ w
  | 6 => decodeU w
  | _ => decodeSys w

/-- Decoding is a pure function of the word (R67); what no row of R60 matches is rejected by name (R68). -/
def decodeWord (w : Word) : Except DecodeError Instr :=
  match decodeFields w with
  | some i => .ok i
  | none => .error (.unknownEncoding w)

/-- The little-endian word of two bytes, low byte first (R32). -/
def wordOfBytes (lo hi : Byte) : Word := hi ++ lo

/-- The low byte of a word (R31). -/
def lowByte (w : Word) : Byte := w.extractLsb' 0 8

/-- The high byte of a word (R31). -/
def highByte (w : Word) : Byte := w.extractLsb' 8 8

/-- Decoding of bytes: every instruction is exactly two of them, low byte first (R50). -/
def decode : List Byte → Except DecodeError Instr
  | [lo, hi] => decodeWord (wordOfBytes lo hi)
  | _ => .error .notTwoBytes

/-! The encoder, format by format (R52 to R59). Ignored fields are written as 0 (R67; log 15). -/

/-- R format (R52). -/
def wordR (funct4 : BitVec 4) (rs2 rd_rs1 : Reg) (funct3 : BitVec 3) : Word :=
  funct4 ++ rs2.toBits ++ rd_rs1.toBits ++ funct3 ++ 0b000#3

/-- I format with a signed immediate (R53, R61). -/
def wordI (simm : Int) (rd_rs1 : Reg) (funct3 : BitVec 3) : Word :=
  BitVec.ofInt 7 simm ++ rd_rs1.toBits ++ funct3 ++ 0b001#3

/-- I format, shift group (R53, R62). -/
def wordShift (shsel : BitVec 3) (shamt : Nat) (rd_rs1 : Reg) : Word :=
  shsel ++ BitVec.ofNat 4 shamt ++ rd_rs1.toBits ++ 0b011#3 ++ 0b001#3

/-- The layout shared by the B, S and L formats (R54 to R56): `off4`, the register of `w[11:9]`, the register of `w[8:6]`. -/
def wordOff4 (off : Int) (r119 r86 : Reg) (funct3 op : BitVec 3) : Word :=
  BitVec.ofInt 4 off ++ r119.toBits ++ r86.toBits ++ funct3 ++ op

/-- The layout shared by the J and U formats (R57, R58): `f`, six upper immediate bits, `rd`, three lower ones. -/
def wordImm9 (f : BitVec 1) (imm : BitVec 9) (rd : Reg) (op : BitVec 3) : Word :=
  f ++ imm.extractLsb' 3 6 ++ rd.toBits ++ imm.extractLsb' 0 3 ++ op

/-- SYS format (R59). -/
def wordSys (service : Nat) (funct3 : BitVec 3) : Word :=
  BitVec.ofNat 10 service ++ funct3 ++ 0b111#3

/-- The word of a well-formed instruction (R52 to R60). -/
def encode : Instr → Word
  | .add rd rs2 => wordR 0b0000#4 rs2 rd 0b000#3
  | .sub rd rs2 => wordR 0b0001#4 rs2 rd 0b000#3
  | .slt rd rs2 => wordR 0b0000#4 rs2 rd 0b001#3
  | .sltu rd rs2 => wordR 0b0000#4 rs2 rd 0b010#3
  | .sll rd rs2 => wordR 0b0010#4 rs2 rd 0b011#3
  | .srl rd rs2 => wordR 0b0100#4 rs2 rd 0b011#3
  | .sra rd rs2 => wordR 0b1000#4 rs2 rd 0b011#3
  | .or rd rs2 => wordR 0b0001#4 rs2 rd 0b100#3
  | .and rd rs2 => wordR 0b0000#4 rs2 rd 0b101#3
  | .xor rd rs2 => wordR 0b0000#4 rs2 rd 0b110#3
  | .mv rd rs2 => wordR 0b0000#4 rs2 rd 0b111#3
  | .jr rd => wordR 0b0100#4 .t0 rd 0b000#3
  | .jalr rd rs2 => wordR 0b1000#4 rs2 rd 0b000#3
  | .addi rd n => wordI n rd 0b000#3
  | .slti rd n => wordI n rd 0b001#3
  | .sltui rd n => wordI n rd 0b010#3
  | .slli rd n => wordShift 0b001#3 n rd
  | .srli rd n => wordShift 0b010#3 n rd
  | .srai rd n => wordShift 0b100#3 n rd
  | .ori rd n => wordI n rd 0b100#3
  | .andi rd n => wordI n rd 0b101#3
  | .xori rd n => wordI n rd 0b110#3
  | .li rd n => wordI n rd 0b111#3
  | .beq rs1 rs2 n => wordOff4 n rs2 rs1 0b000#3 0b010#3
  | .bne rs1 rs2 n => wordOff4 n rs2 rs1 0b001#3 0b010#3
  | .bz rs1 n => wordOff4 n .t0 rs1 0b010#3 0b010#3
  | .bnz rs1 n => wordOff4 n .t0 rs1 0b011#3 0b010#3
  | .blt rs1 rs2 n => wordOff4 n rs2 rs1 0b100#3 0b010#3
  | .bge rs1 rs2 n => wordOff4 n rs2 rs1 0b101#3 0b010#3
  | .bltu rs1 rs2 n => wordOff4 n rs2 rs1 0b110#3 0b010#3
  | .bgeu rs1 rs2 n => wordOff4 n rs2 rs1 0b111#3 0b010#3
  | .sb rs2 rs1 n => wordOff4 n rs2 rs1 0b000#3 0b011#3
  | .sw rs2 rs1 n => wordOff4 n rs2 rs1 0b001#3 0b011#3
  | .lb rd rs2 n => wordOff4 n rs2 rd 0b000#3 0b100#3
  | .lw rd rs2 n => wordOff4 n rs2 rd 0b001#3 0b100#3
  | .lbu rd rs2 n => wordOff4 n rs2 rd 0b100#3 0b100#3
  | .j n => wordImm9 0b0#1 (BitVec.ofInt 9 n) .t0 0b101#3
  | .jal rd n => wordImm9 0b1#1 (BitVec.ofInt 9 n) rd 0b101#3
  | .lui rd n => wordImm9 0b0#1 (BitVec.ofNat 9 n) rd 0b110#3
  | .auipc rd n => wordImm9 0b1#1 (BitVec.ofNat 9 n) rd 0b110#3
  | .ecall n => wordSys n 0b000#3

/-- The bytes of a well-formed instruction, low byte first (R50). -/
def encodeBytes (i : Instr) : List Byte := [lowByte (encode i), highByte (encode i)]

/-! The opcode map as R60 prints it, independent of the decoder above. -/

/-- One row of the opcode map (R60). -/
structure OpcodeRow where
  mnemonic : String
  mask : Word
  pattern : Word
  deriving DecidableEq, Repr

/-- The row of R60 that an instruction belongs to. -/
def Instr.row : Instr → OpcodeRow
  | .add _ _ => ⟨"add", 0xF03F#16, 0x0000#16⟩
  | .sub _ _ => ⟨"sub", 0xF03F#16, 0x1000#16⟩
  | .slt _ _ => ⟨"slt", 0xF03F#16, 0x0008#16⟩
  | .sltu _ _ => ⟨"sltu", 0xF03F#16, 0x0010#16⟩
  | .sll _ _ => ⟨"sll", 0xF03F#16, 0x2018#16⟩
  | .srl _ _ => ⟨"srl", 0xF03F#16, 0x4018#16⟩
  | .sra _ _ => ⟨"sra", 0xF03F#16, 0x8018#16⟩
  | .or _ _ => ⟨"or", 0xF03F#16, 0x1020#16⟩
  | .and _ _ => ⟨"and", 0xF03F#16, 0x0028#16⟩
  | .xor _ _ => ⟨"xor", 0xF03F#16, 0x0030#16⟩
  | .mv _ _ => ⟨"mv", 0xF03F#16, 0x0038#16⟩
  | .jr _ => ⟨"jr", 0xF03F#16, 0x4000#16⟩
  | .jalr _ _ => ⟨"jalr", 0xF03F#16, 0x8000#16⟩
  | .addi _ _ => ⟨"addi", 0x003F#16, 0x0001#16⟩
  | .slti _ _ => ⟨"slti", 0x003F#16, 0x0009#16⟩
  | .sltui _ _ => ⟨"sltui", 0x003F#16, 0x0011#16⟩
  | .slli _ _ => ⟨"slli", 0xE03F#16, 0x2019#16⟩
  | .srli _ _ => ⟨"srli", 0xE03F#16, 0x4019#16⟩
  | .srai _ _ => ⟨"srai", 0xE03F#16, 0x8019#16⟩
  | .ori _ _ => ⟨"ori", 0x003F#16, 0x0021#16⟩
  | .andi _ _ => ⟨"andi", 0x003F#16, 0x0029#16⟩
  | .xori _ _ => ⟨"xori", 0x003F#16, 0x0031#16⟩
  | .li _ _ => ⟨"li", 0x003F#16, 0x0039#16⟩
  | .beq _ _ _ => ⟨"beq", 0x003F#16, 0x0002#16⟩
  | .bne _ _ _ => ⟨"bne", 0x003F#16, 0x000A#16⟩
  | .bz _ _ => ⟨"bz", 0x003F#16, 0x0012#16⟩
  | .bnz _ _ => ⟨"bnz", 0x003F#16, 0x001A#16⟩
  | .blt _ _ _ => ⟨"blt", 0x003F#16, 0x0022#16⟩
  | .bge _ _ _ => ⟨"bge", 0x003F#16, 0x002A#16⟩
  | .bltu _ _ _ => ⟨"bltu", 0x003F#16, 0x0032#16⟩
  | .bgeu _ _ _ => ⟨"bgeu", 0x003F#16, 0x003A#16⟩
  | .sb _ _ _ => ⟨"sb", 0x003F#16, 0x0003#16⟩
  | .sw _ _ _ => ⟨"sw", 0x003F#16, 0x000B#16⟩
  | .lb _ _ _ => ⟨"lb", 0x003F#16, 0x0004#16⟩
  | .lw _ _ _ => ⟨"lw", 0x003F#16, 0x000C#16⟩
  | .lbu _ _ _ => ⟨"lbu", 0x003F#16, 0x0024#16⟩
  | .j _ => ⟨"j", 0x8007#16, 0x0005#16⟩
  | .jal _ _ => ⟨"jal", 0x8007#16, 0x8005#16⟩
  | .lui _ _ => ⟨"lui", 0x8007#16, 0x0006#16⟩
  | .auipc _ _ => ⟨"auipc", 0x8007#16, 0x8006#16⟩
  | .ecall _ => ⟨"ecall", 0x003F#16, 0x0007#16⟩

/-- A word is the instruction of a row when `w & mask == match` (R60). -/
def Instr.rowMatches (i : Instr) (w : Word) : Prop := w &&& i.row.mask = i.row.pattern

/-- The bits that R67 does not ignore: all but `rs2` of `jr`, `bz`, `bnz` and `rd` of `j`. -/
def Instr.careMask : Instr → Word
  | .jr _ => 0xF1FF#16
  | .bz _ _ => 0xF1FF#16
  | .bnz _ _ => 0xF1FF#16
  | .j _ => 0xFE3F#16
  | _ => 0xFFFF#16

/-- What the decoder reads from `nbits` bits numbered as spec/opcode_table.json numbers them; bits above them are 0, and the word
is laid out as its two bytes, low byte first. -/
def decodeTableWord (nbits w : Nat) : Option Instr :=
  let word : Word := BitVec.ofNat 16 (w % 2 ^ nbits)
  match decode [lowByte word, highByte word] with
  | .ok i => some i
  | .error _ => none

end Sys2Proof
end

