-- ==== Sys2Proof/Config.lean ====
section
/-! DEFINITION. The constants of the documented machine (00_scope.md R5). The spec leaves no value to an implementation, so
there is no free value here. -/

namespace Sys2Proof.Config

/-- `MEM_SIZE`: bytes of memory, addresses 0 to 65 535 (R5, R30). -/
def memSize : Nat := 65536

/-- `CYCLE_BUDGET`: the most instructions executed in one run (R5, R89; log 10). -/
def cycleBudget : Nat := 10000

/-- `SP_RESET`: the reset value of register 2, `MEM_SIZE - 2` (R5, R26). -/
def spReset : Word := 0xFFFE#16

/-- `PC_RESET`: the reset value of `pc` (R5, R26). -/
def pcReset : Word := 0x0000#16

end Sys2Proof.Config
end

