-- ==== Sys2Proof/Machine/State.lean ====
section
/-! DEFINITION. The state of the core as plain data (10_state.md), the reasons it stops, the events it emits, and the state
right after reset. -/

namespace Sys2Proof.Machine

/-- The register file: eight 16-bit registers, none hard-wired (R10 to R12). -/
structure Regs where
  t0 : Word
  ra : Word
  sp : Word
  s0 : Word
  s1 : Word
  t1 : Word
  a0 : Word
  a1 : Word
  deriving DecidableEq, Repr

/-- The memory array (R21, R30): its non-zero bytes by strictly rising address; every other byte is 0 (R26). -/
abbrev Memory := List Host.Cell

/-- Why an instruction or a fetch faults: the core's only fatal error (R220, R221). -/
inductive Fault where
  /-- `MemoryBounds(a, n)`: an access of `n` bytes at the mathematical address `a` with `a < 0` or `a + n - 1 > 65535`. Raised by
  the fetch, `lb lw lbu sb sw` and `ecall 5`. Safe: the spec names this fault and the access has no effect (R35, R221; log 3, 8, 9). -/
  | memoryBounds (address : Int) (size : Nat)
  deriving DecidableEq, Repr

/-- Why an instruction has no meaning. -/
inductive Refusal where
  /-- An instruction whose arm of `exec` has no meaning yet. Safe. No arm of this model raises it. -/
  | notModelled (mnemonic : String)
  deriving DecidableEq, Repr

/-- The four reasons for which a run stops (R22, R83). -/
inductive StopReason where
  /-- `pc >= program_size` before a fetch -/
  | endOfProgram
  /-- an `ecall` with service 3 was executed -/
  | halt
  /-- a bounds check failed -/
  | fault (f : Fault)
  /-- 10 000 instructions have been executed -/
  | cycleBudgetExceeded
  deriving DecidableEq, Repr

/-- The run status (R22). -/
inductive Status where
  | running
  | stopped (reason : StopReason)
  deriving DecidableEq, Repr

/-- What an environment call puts out, as structured data (R200; U11). Its text is `EcallOutput.lines` of Machine/Output.lean. -/
inductive EcallOutput where
  /-- service 1: the signed value of `a0` (R202) -/
  | printInteger (value : Int)
  /-- service 3 (R203) -/
  | terminate
  /-- service 5: the bytes of the string, without the final zero (R204) -/
  | printString (bytes : List Byte)
  /-- any other service (R205) -/
  | other (service : Nat)
  deriving DecidableEq, Repr

/-- The events of the core's output sequence (R98). -/
inductive Event where
  /-- every step that fetches (R81 line 4) -/
  | trace (pc w : Word)
  /-- an unknown encoding (R86) -/
  | diagnostic (pc w : Word)
  /-- an `ecall` (R202 to R205) -/
  | ecallOutput (output : EcallOutput)
  /-- the cycle budget is used up (R81 line 2) -/
  | budgetNotice (pc : Word)
  deriving DecidableEq, Repr

/-- The whole machine state (10_state.md, its first paragraph, R22 to R24; log 4 for `events`). -/
structure State where
  /-- the general registers (R10) -/
  regs : Regs
  /-- the program counter (R14) -/
  pc : Word
  /-- the byte array (R21) -/
  mem : Memory
  /-- the number of bytes loaded, 0 ... 65 536, constant during a run (R24) -/
  programSize : Nat
  /-- running or stopped (R22) -/
  status : Status
  /-- instructions executed since reset (R23) -/
  icount : Nat
  /-- the output event sequence, oldest first (R98) -/
  events : List Event
  deriving DecidableEq, Repr

/-- The register values after reset (R26, R250). -/
def Regs.reset : Regs :=
  { t0 := 0#16, ra := 0#16, sp := Config.spReset, s0 := 0#16, s1 := 0#16, t1 := 0#16, a0 := 0#16, a1 := 0#16 }

/-- First start with the empty image (R26, R250 to R252; log 1): a program is loaded from outside (`State.load`). -/
def State.reset : State :=
  { regs := Regs.reset, pc := Config.pcReset, mem := [], programSize := 0, status := .running, icount := 0, events := [] }

end Sys2Proof.Machine
end

