-- ==== Sys2Proof/Machine/Ops.lean ====
section
/-! DEFINITION. The named operations over registers, memory, the program counter, the event sequence and the run status. -/

namespace Sys2Proof.Machine

/-- What one step or one instruction answers. -/
abbrev Outcome := Host.Outcome State Fault Refusal

/-! ### Registers (R8 `x[i]`, R10 to R12) -/

/-- `x[r]` of a register file. -/
def Regs.get (x : Regs) : Reg → Word
  | .t0 => x.t0
  | .ra => x.ra
  | .sp => x.sp
  | .s0 => x.s0
  | .s1 => x.s1
  | .t1 => x.t1
  | .a0 => x.a0
  | .a1 => x.a1

/-- `x[r] <- v` in a register file: every register is writable (R12). -/
def Regs.set (x : Regs) (r : Reg) (v : Word) : Regs :=
  match r with
  | .t0 => { x with t0 := v }
  | .ra => { x with ra := v }
  | .sp => { x with sp := v }
  | .s0 => { x with s0 := v }
  | .s1 => { x with s1 := v }
  | .t1 => { x with t1 := v }
  | .a0 => { x with a0 := v }
  | .a1 => { x with a1 := v }

/-- `x[r]`. -/
def State.reg (s : State) (r : Reg) : Word := s.regs.get r

/-- `x[r] <- v`. -/
def State.setReg (s : State) (r : Reg) (v : Word) : State := { s with regs := s.regs.set r v }

/-! ### Memory (20_memory.md) -/

/-- `memory[a]`: the byte listed for `a`, and 0 where none is listed (R26 "zero elsewhere"). -/
def Memory.get : Memory → Nat → Byte
  | [], _ => 0#8
  | (c, v) :: m, a => if a < c then 0#8 else if a = c then v else Memory.get m a

/-- The listing of one byte: a zero byte is not listed. -/
def Memory.cell (a : Nat) (b : Byte) : Memory := if b = 0#8 then [] else [(a, b)]

/-- What is listed above address `a`. -/
def Memory.above (m : Memory) (a : Nat) : Memory := m.dropWhile fun c => decide (c.1 ≤ a)

/-- `memory[a] <- b`, keeping the canonical form (log 26). -/
def Memory.set : Memory → Nat → Byte → Memory
  | [], a, b => Memory.cell a b
  | (c, v) :: m, a, b =>
    if c < a then (c, v) :: Memory.set m a b else Memory.cell a b ++ Memory.above ((c, v) :: m) a

/-- The canonical form from address `lo` on: addresses strictly rising, below `MEM_SIZE`, no byte 0. -/
def Memory.wfFrom : Nat → Memory → Bool
  | _, [] => true
  | lo, (a, b) :: m => decide (lo ≤ a) && decide (a < Config.memSize) && decide (b ≠ 0#8) && Memory.wfFrom (a + 1) m

/-- The canonical form of memory. -/
def Memory.wf (m : Memory) : Bool := Memory.wfFrom 0 m

/-- One byte of the state's memory: the read that statements use. -/
def State.byteAt (s : State) (a : Nat) : Byte := s.mem.get a

/-- The bounds check of `MemRead(a, n)` and `MemWrite(a, n, v)`: `0 <= a` and `a + n - 1 <= 65535` (R34, R35). -/
def inBounds (a : Int) (n : Nat) : Bool := decide (0 ≤ a) && decide (a + n ≤ Config.memSize)

/-- `MemRead(a, 1)` (R34). -/
def memRead8 (m : Memory) (a : Int) : Except Fault Byte :=
  if inBounds a 1 then .ok (m.get a.toNat) else .error (.memoryBounds a 1)

/-- `MemRead(a, 2)`, little-endian (R31, R34). -/
def memRead16 (m : Memory) (a : Int) : Except Fault Word :=
  if inBounds a 2 then .ok (wordOfBytes (m.get a.toNat) (m.get (a.toNat + 1))) else .error (.memoryBounds a 2)

/-- `MemWrite(a, 1, v)`: the low byte of `v`; the check comes first (R35). -/
def memWrite8 (m : Memory) (a : Int) (v : Word) : Except Fault Memory :=
  if inBounds a 1 then .ok (m.set a.toNat (lowByte v)) else .error (.memoryBounds a 1)

/-- `MemWrite(a, 2, v)`: low byte at `a`, high byte at `a + 1`; the check comes before either write (R31, R35). -/
def memWrite16 (m : Memory) (a : Int) (v : Word) : Except Fault Memory :=
  if inBounds a 2 then .ok ((m.set a.toNat (lowByte v)).set (a.toNat + 1) (highByte v)) else .error (.memoryBounds a 2)

/-- `ReadString` of R204 over the `left` bytes that remain from `a` to the end of memory; past them `MemRead(65536, 1)` raises. -/
def readStringFrom (m : Memory) : Nat → Nat → Except Fault (List Byte)
  | 0, a => .error (.memoryBounds a 1)
  | left + 1, a =>
    (memRead8 m a).bind fun b => if b = 0#8 then .ok [] else (readStringFrom m left (a + 1)).map (b :: ·)

/-- `ReadString(a0)` (R204; log 18). -/
def readString (m : Memory) (a0 : Word) : Except Fault (List Byte) :=
  readStringFrom m (Config.memSize - a0.toNat) a0.toNat

/-! ### Program counter, events, status -/

/-- `pc <- t` (R8, R84). -/
def State.setPc (s : State) (t : Word) : State := { s with pc := t }

/-- The fall-through address `u16(pc + 2)` (R16, R17). -/
def State.nextPc (s : State) : Word := s.pc + 2#16

/-- `pc <- pc + 2` (R16, R84). -/
def State.advance (s : State) : State := s.setPc s.nextPc

/-- `memory <- m`. -/
def State.setMem (s : State) (m : Memory) : State := { s with mem := m }

/-- `emit E`: append to the output event sequence (R8, R98). -/
def State.emit (s : State) (e : Event) : State := { s with events := s.events ++ [e] }

/-- `status <- Stopped(reason)` (R22, R83). -/
def State.stop (s : State) (r : StopReason) : State := { s with status := .stopped r }

/-- Taking the one fatal exception: the run stops with `Fault(f)`; no register, no byte and not `pc` changes, nothing is saved
and no handler is entered (R83, R221, R232; log 9). -/
def State.takeFault (s : State) (f : Fault) : State := s.stop (.fault f)

/-- The way out of `Stopped`: core reset alone (R250, R252, R233). Registers, `pc`, `icount` and status take their reset values,
memory and `program_size` stay, and a new run's event sequence begins (log 20). -/
def State.coreReset (s : State) : State :=
  { State.reset with mem := s.mem, programSize := s.programSize }

/-- `halt` (R83, R203): the run stops and `pc` keeps the address of the `ecall` (log 9). -/
def State.haltRun (s : State) : State := s.stop .halt

/-! ### Loading (R251) -/

/-- The image bytes from address `a` on, as memory in canonical form. -/
def imageMemory : Nat → List Byte → Memory
  | _, [] => []
  | a, b :: bs => if b = 0#8 then imageMemory (a + 1) bs else (a, b) :: imageMemory (a + 1) bs

/-- First start: memory zeroed, the image placed at address 0, core reset; for an image of at most 65 536 bytes
(R97, R251, R252; log 1, 21). -/
def State.load (image : List Byte) : State :=
  { State.reset with mem := imageMemory 0 image, programSize := image.length }

/-! ### Shapes shared by the instructions -/

/-- Write a result to the destination and go to the next instruction (R111, R130, R190). -/
def writeResult (rd : Reg) (v : Word) (s : State) : Outcome := .next (s.setReg rd v).advance

/-- Load: the value read, extended, goes to `rd`; if the read raises, nothing changes (R85, R170). -/
def loadResult (rd : Reg) (read : Except Fault Word) (s : State) : Outcome :=
  match read with
  | .ok v => writeResult rd v s
  | .error f => .fault f

/-- Store: the written memory replaces the old; if the write raises, nothing changes (R85, R160). -/
def storeResult (write : Except Fault Memory) (s : State) : Outcome :=
  match write with
  | .ok m => .next (s.setMem m).advance
  | .error f => .fault f

/-- Branch: the given target when the condition holds, else the next instruction (R140). -/
def branchTo (taken : Bool) (target : Word) (s : State) : Outcome :=
  if taken then .next (s.setPc target) else .next s.advance

end Sys2Proof.Machine
end

