-- ==== Sys2Proof/Machine/Operands.lean ====
section
/-! DEFINITION. How operands are formed: immediates, shift amounts, effective addresses, branch and jump targets. -/

namespace Sys2Proof.Machine

/-- The immediate operand `u16(simm)` of the I format, sign-extended (R61, R130; log 13, 19). -/
def immOperand (simm : Int) : Word := u16 simm

/-- The amount of a register shift: `x[rs2] & 0xF` (R93; log 12 for `sra`). -/
def shiftAmount (b : Word) : Nat := (b &&& 0xF#16).toNat

/-- The effective address `x[base] + moff`, a mathematical integer that is not wrapped (R39, R64; log 8). -/
def effectiveAddress (base : Reg) (moff : Int) (s : State) : Int := (s.reg base).toNat + moff

/-- The taken target of the comparison group: `u16(pc + 2*boff + 2)` (R140). -/
def compareTarget (boff : Int) (s : State) : Word := u16 (s.pc.toNat + 2 * boff + 2)

/-- The taken target of the zero-test group: `u16(pc + 2*boff)` (R140). -/
def zeroTestTarget (boff : Int) (s : State) : Word := u16 (s.pc.toNat + 2 * boff)

/-- The target of `j` and `jal`: `u16(pc + 2*jimm)` (R180). -/
def jumpTarget (jimm : Int) (s : State) : Word := u16 (s.pc.toNat + 2 * jimm)

/-- `K = uimm9 << 7`, which fills exactly 16 bits (R66, R190). -/
def upperConstant (uimm9 : Nat) : Word := u16 (uimm9 * 128)

/-- `u16(sext_8(b))` of the byte that `lb` loads (R171). -/
def signExtendByte (b : Byte) : Word := b.signExtend 16

/-- The byte that `lbu` loads, with bits 15:8 zero (R173). -/
def zeroExtendByte (b : Byte) : Word := b.zeroExtend 16

end Sys2Proof.Machine
end

