-- ==== Sys2Proof/Machine/BType.lean ====
section
/-! DEFINITION. B-type instructions (43_b_type.md): R140 for the two target rules, R150 for the conditions (log 14). -/

namespace Sys2Proof.Machine

/-- `beq rs1, rs2, target` (R141). -/
def execBeq (rs1 rs2 : Reg) (boff : Int) (s : State) : Outcome :=
  branchTo (condEq (s.reg rs1) (s.reg rs2)) (compareTarget boff s) s

/-- `bne rs1, rs2, target` (R142). -/
def execBne (rs1 rs2 : Reg) (boff : Int) (s : State) : Outcome :=
  branchTo (condNe (s.reg rs1) (s.reg rs2)) (compareTarget boff s) s

/-- `bz rs1, target` (R143). -/
def execBz (rs1 : Reg) (boff : Int) (s : State) : Outcome :=
  branchTo (condZero (s.reg rs1)) (zeroTestTarget boff s) s

/-- `bnz rs1, target` (R144). -/
def execBnz (rs1 : Reg) (boff : Int) (s : State) : Outcome :=
  branchTo (condNotZero (s.reg rs1)) (zeroTestTarget boff s) s

/-- `blt rs1, rs2, target` (R145). -/
def execBlt (rs1 rs2 : Reg) (boff : Int) (s : State) : Outcome :=
  branchTo (condLt (s.reg rs1) (s.reg rs2)) (compareTarget boff s) s

/-- `bge rs1, rs2, target` (R146). -/
def execBge (rs1 rs2 : Reg) (boff : Int) (s : State) : Outcome :=
  branchTo (condGe (s.reg rs1) (s.reg rs2)) (compareTarget boff s) s

/-- `bltu rs1, rs2, target` (R147). -/
def execBltu (rs1 rs2 : Reg) (boff : Int) (s : State) : Outcome :=
  branchTo (condLtu (s.reg rs1) (s.reg rs2)) (compareTarget boff s) s

/-- `bgeu rs1, rs2, target` (R148). -/
def execBgeu (rs1 rs2 : Reg) (boff : Int) (s : State) : Outcome :=
  branchTo (condGeu (s.reg rs1) (s.reg rs2)) (compareTarget boff s) s

end Sys2Proof.Machine
end

