-- ==== Sys2Proof/Machine/Alu.lean ====
section
/-! DEFINITION. The ALU (40_engine.md R90 to R94): two 16-bit operands, one 16-bit result, no flag, no exception. The comparisons
`LTS`, `LTU` are in Flags.lean. -/

namespace Sys2Proof.Machine

/-- `ADD(a, b) = (a + b) mod 65536` (R91). -/
def aluAdd (a b : Word) : Word := a + b

/-- `SUB(a, b) = (a - b) mod 65536` (R91). -/
def aluSub (a b : Word) : Word := a - b

/-- `SLL(a, n)`: zeros enter at bit 0 (R93). -/
def aluSll (a : Word) (n : Nat) : Word := a <<< n

/-- `SRL(a, n)`: zeros enter at bit 15 (R93). -/
def aluSrl (a : Word) (n : Nat) : Word := a >>> n

/-- `SRA(a, n) = u16(floor(signed(a) / 2^n))`: copies of bit 15 enter at bit 15 (R93). -/
def aluSra (a : Word) (n : Nat) : Word := a.sshiftRight n

/-- `OR(a, b)` (R94; log 13). -/
def aluOr (a b : Word) : Word := a ||| b

/-- `AND(a, b)` (R94; log 13). -/
def aluAnd (a b : Word) : Word := a &&& b

/-- `XOR(a, b)` (R94; log 13). -/
def aluXor (a b : Word) : Word := a ^^^ b

end Sys2Proof.Machine
end

