-- ==== Sys2Proof/Machine/IType.lean ====
section
/-! DEFINITION. I-type instructions (42_i_type.md). -/

namespace Sys2Proof.Machine

/-- `addi rd_rs1, imm` (R120, R130). -/
def execAddi (rd_rs1 : Reg) (simm : Int) (s : State) : Outcome :=
  writeResult rd_rs1 (aluAdd (s.reg rd_rs1) (immOperand simm)) s

/-- `slti rd_rs1, imm` (R121, R130; log 19). -/
def execSlti (rd_rs1 : Reg) (simm : Int) (s : State) : Outcome :=
  writeResult rd_rs1 (aluLTS (s.reg rd_rs1) (immOperand simm)) s

/-- `sltui rd_rs1, imm` (R122, R130; log 19). -/
def execSltui (rd_rs1 : Reg) (simm : Int) (s : State) : Outcome :=
  writeResult rd_rs1 (aluLTU (s.reg rd_rs1) (immOperand simm)) s

/-- `slli rd_rs1, shamt` (R123, R130). -/
def execSlli (rd_rs1 : Reg) (shamt : Nat) (s : State) : Outcome :=
  writeResult rd_rs1 (aluSll (s.reg rd_rs1) shamt) s

/-- `srli rd_rs1, shamt` (R124, R130). -/
def execSrli (rd_rs1 : Reg) (shamt : Nat) (s : State) : Outcome :=
  writeResult rd_rs1 (aluSrl (s.reg rd_rs1) shamt) s

/-- `srai rd_rs1, shamt` (R125, R130). -/
def execSrai (rd_rs1 : Reg) (shamt : Nat) (s : State) : Outcome :=
  writeResult rd_rs1 (aluSra (s.reg rd_rs1) shamt) s

/-- `ori rd_rs1, imm` (R126, R130; log 13). -/
def execOri (rd_rs1 : Reg) (simm : Int) (s : State) : Outcome :=
  writeResult rd_rs1 (aluOr (s.reg rd_rs1) (immOperand simm)) s

/-- `andi rd_rs1, imm` (R127, R130; log 13). -/
def execAndi (rd_rs1 : Reg) (simm : Int) (s : State) : Outcome :=
  writeResult rd_rs1 (aluAnd (s.reg rd_rs1) (immOperand simm)) s

/-- `xori rd_rs1, imm` (R128, R130; log 13). -/
def execXori (rd_rs1 : Reg) (simm : Int) (s : State) : Outcome :=
  writeResult rd_rs1 (aluXor (s.reg rd_rs1) (immOperand simm)) s

/-- `li rd_rs1, imm` (R129, R130). -/
def execLi (rd_rs1 : Reg) (simm : Int) (s : State) : Outcome :=
  writeResult rd_rs1 (immOperand simm) s

end Sys2Proof.Machine
end

