-- ==== Sys2Proof/Machine/JType.lean ====
section
/-! DEFINITION. J-type instructions (46_j_type.md). -/

namespace Sys2Proof.Machine

/-- `j target` (R180, R181). -/
def execJ (jimm : Int) (s : State) : Outcome :=
  .next (s.setPc (jumpTarget jimm s))

/-- `jal rd, target`: link and target both from the address of the `jal` (R180, R182). -/
def execJal (rd : Reg) (jimm : Int) (s : State) : Outcome :=
  .next ((s.setReg rd s.nextPc).setPc (jumpTarget jimm s))

end Sys2Proof.Machine
end

