-- ==== Sys2Proof/Machine/LType.lean ====
section
/-! DEFINITION. L-type instructions (45_l_type.md). The base register is the field `w[11:9]`. -/

namespace Sys2Proof.Machine

/-- `lb rd, moff(rs2)`: one byte, sign-extended (R170, R171). -/
def execLb (rd rs2 : Reg) (moff : Int) (s : State) : Outcome :=
  loadResult rd ((memRead8 s.mem (effectiveAddress rs2 moff s)).map signExtendByte) s

/-- `lw rd, moff(rs2)`: one word (R170, R172). -/
def execLw (rd rs2 : Reg) (moff : Int) (s : State) : Outcome :=
  loadResult rd (memRead16 s.mem (effectiveAddress rs2 moff s)) s

/-- `lbu rd, moff(rs2)`: one byte, zero-extended (R170, R173). -/
def execLbu (rd rs2 : Reg) (moff : Int) (s : State) : Outcome :=
  loadResult rd ((memRead8 s.mem (effectiveAddress rs2 moff s)).map zeroExtendByte) s

end Sys2Proof.Machine
end

