-- ==== Sys2Proof/Machine/RType.lean ====
section
/-! DEFINITION. R-type instructions (41_r_type.md). -/

namespace Sys2Proof.Machine

/-- `add rd_rs1, rs2` (R100, R111). -/
def execAdd (rd_rs1 rs2 : Reg) (s : State) : Outcome :=
  writeResult rd_rs1 (aluAdd (s.reg rd_rs1) (s.reg rs2)) s

/-- `sub rd_rs1, rs2` (R101, R111). -/
def execSub (rd_rs1 rs2 : Reg) (s : State) : Outcome :=
  writeResult rd_rs1 (aluSub (s.reg rd_rs1) (s.reg rs2)) s

/-- `slt rd_rs1, rs2` (R102, R111). -/
def execSlt (rd_rs1 rs2 : Reg) (s : State) : Outcome :=
  writeResult rd_rs1 (aluLTS (s.reg rd_rs1) (s.reg rs2)) s

/-- `sltu rd_rs1, rs2` (R103, R111; log 19). -/
def execSltu (rd_rs1 rs2 : Reg) (s : State) : Outcome :=
  writeResult rd_rs1 (aluLTU (s.reg rd_rs1) (s.reg rs2)) s

/-- `sll rd_rs1, rs2` (R104, R111). -/
def execSll (rd_rs1 rs2 : Reg) (s : State) : Outcome :=
  writeResult rd_rs1 (aluSll (s.reg rd_rs1) (shiftAmount (s.reg rs2))) s

/-- `srl rd_rs1, rs2` (R105, R111). -/
def execSrl (rd_rs1 rs2 : Reg) (s : State) : Outcome :=
  writeResult rd_rs1 (aluSrl (s.reg rd_rs1) (shiftAmount (s.reg rs2))) s

/-- `sra rd_rs1, rs2` (R106, R111; log 12). -/
def execSra (rd_rs1 rs2 : Reg) (s : State) : Outcome :=
  writeResult rd_rs1 (aluSra (s.reg rd_rs1) (shiftAmount (s.reg rs2))) s

/-- `or rd_rs1, rs2` (R107, R111; log 13). -/
def execOr (rd_rs1 rs2 : Reg) (s : State) : Outcome :=
  writeResult rd_rs1 (aluOr (s.reg rd_rs1) (s.reg rs2)) s

/-- `and rd_rs1, rs2` (R108, R111; log 13). -/
def execAnd (rd_rs1 rs2 : Reg) (s : State) : Outcome :=
  writeResult rd_rs1 (aluAnd (s.reg rd_rs1) (s.reg rs2)) s

/-- `xor rd_rs1, rs2` (R109, R111; log 13). -/
def execXor (rd_rs1 rs2 : Reg) (s : State) : Outcome :=
  writeResult rd_rs1 (aluXor (s.reg rd_rs1) (s.reg rs2)) s

/-- `mv rd_rs1, rs2` (R110, R111). -/
def execMv (rd_rs1 rs2 : Reg) (s : State) : Outcome :=
  writeResult rd_rs1 (s.reg rs2) s

/-- `jr rd_rs1`: `pc <- x[rd_rs1]`, all 16 bits, no link (R112; log 6). -/
def execJr (rd_rs1 : Reg) (s : State) : Outcome :=
  .next (s.setPc (s.reg rd_rs1))

/-- `jalr rd_rs1, rs2`: the link `u16(pc + 2)` is written first, then the target is read (R113; log 11). -/
def execJalr (rd_rs1 rs2 : Reg) (s : State) : Outcome :=
  let linked := s.setReg rd_rs1 s.nextPc
  .next (linked.setPc (linked.reg rs2))

end Sys2Proof.Machine
end

