-- ==== Sys2Proof/Machine/SType.lean ====
section
/-! DEFINITION. S-type instructions (44_s_type.md). -/

namespace Sys2Proof.Machine

/-- `sb rs2, moff(rs1)`: the low byte of `x[rs2]` at `x[rs1] + moff` (R160, R161). -/
def execSb (rs2 rs1 : Reg) (moff : Int) (s : State) : Outcome :=
  storeResult (memWrite8 s.mem (effectiveAddress rs1 moff s) (s.reg rs2)) s

/-- `sw rs2, moff(rs1)`: the word `x[rs2]`, little-endian, at `x[rs1] + moff` (R160, R162). -/
def execSw (rs2 rs1 : Reg) (moff : Int) (s : State) : Outcome :=
  storeResult (memWrite16 s.mem (effectiveAddress rs1 moff s) (s.reg rs2)) s

end Sys2Proof.Machine
end

