-- ==== Sys2Proof/Machine/Sys.lean ====
section
/-! DEFINITION. The SYS-type instruction and the services of the environment (48_sys.md). -/

namespace Sys2Proof.Machine

/-- Service 1, print integer: the signed value of `a0` (R202). -/
def servicePrintInteger (s : State) : Outcome :=
  .next (s.emit (.ecallOutput (.printInteger (signed (s.reg .a0))))).advance

/-- Service 3, terminate: the two lines, then halt (R203). -/
def serviceTerminate (s : State) : Outcome :=
  .next (s.emit (.ecallOutput .terminate)).haltRun

/-- Service 5, print string: the bytes from `a0` up to a zero byte; if the read raises, nothing is printed (R204; log 18). -/
def servicePrintString (s : State) : Outcome :=
  match readString s.mem (s.reg .a0) with
  | .ok bs => .next (s.emit (.ecallOutput (.printString bs))).advance
  | .error f => .fault f

/-- Any other service: its number (R205). -/
def serviceOther (service : Nat) (s : State) : Outcome :=
  .next (s.emit (.ecallOutput (.other service))).advance

/-- `ecall n` (R200). -/
def execEcall (service : Nat) (s : State) : Outcome :=
  match service with
  | 1 => servicePrintInteger s
  | 3 => serviceTerminate s
  | 5 => servicePrintString s
  | n => serviceOther n s

end Sys2Proof.Machine
end

