-- ==== Sys2Proof/Machine/UType.lean ====
section
/-! DEFINITION. U-type instructions (47_u_type.md). -/

namespace Sys2Proof.Machine

/-- `lui rd, imm` (R190, R191). -/
def execLui (rd : Reg) (uimm9 : Nat) (s : State) : Outcome :=
  writeResult rd (upperConstant uimm9) s

/-- `auipc rd, imm`: the address of the `auipc` itself plus `K` (R190, R192). -/
def execAuipc (rd : Reg) (uimm9 : Nat) (s : State) : Outcome :=
  writeResult rd (s.pc + upperConstant uimm9) s

end Sys2Proof.Machine
end

