-- ==== Sys2Proof/Machine/Dispatch.lean ====
section
/-! DEFINITION. Dispatch (40_engine.md R85): each instruction performs the one rule that 30_encoding.md R60 names for its row. -/

namespace Sys2Proof.Machine

def exec (i : Instr) (s : State) : Host.Outcome State Fault Refusal :=
  match i with
  | .add rd_rs1 rs2 => Sys2Proof.Machine.execAdd rd_rs1 rs2 s
  | .sub rd_rs1 rs2 => Sys2Proof.Machine.execSub rd_rs1 rs2 s
  | .slt rd_rs1 rs2 => Sys2Proof.Machine.execSlt rd_rs1 rs2 s
  | .sltu rd_rs1 rs2 => Sys2Proof.Machine.execSltu rd_rs1 rs2 s
  | .sll rd_rs1 rs2 => Sys2Proof.Machine.execSll rd_rs1 rs2 s
  | .srl rd_rs1 rs2 => Sys2Proof.Machine.execSrl rd_rs1 rs2 s
  | .sra rd_rs1 rs2 => Sys2Proof.Machine.execSra rd_rs1 rs2 s
  | .or rd_rs1 rs2 => Sys2Proof.Machine.execOr rd_rs1 rs2 s
  | .and rd_rs1 rs2 => Sys2Proof.Machine.execAnd rd_rs1 rs2 s
  | .xor rd_rs1 rs2 => Sys2Proof.Machine.execXor rd_rs1 rs2 s
  | .mv rd_rs1 rs2 => Sys2Proof.Machine.execMv rd_rs1 rs2 s
  | .jr rd_rs1 => Sys2Proof.Machine.execJr rd_rs1 s
  | .jalr rd_rs1 rs2 => Sys2Proof.Machine.execJalr rd_rs1 rs2 s
  | .addi rd_rs1 simm => Sys2Proof.Machine.execAddi rd_rs1 simm s
  | .slti rd_rs1 simm => Sys2Proof.Machine.execSlti rd_rs1 simm s
  | .sltui rd_rs1 simm => Sys2Proof.Machine.execSltui rd_rs1 simm s
  | .slli rd_rs1 shamt => Sys2Proof.Machine.execSlli rd_rs1 shamt s
  | .srli rd_rs1 shamt => Sys2Proof.Machine.execSrli rd_rs1 shamt s
  | .srai rd_rs1 shamt => Sys2Proof.Machine.execSrai rd_rs1 shamt s
  | .ori rd_rs1 simm => Sys2Proof.Machine.execOri rd_rs1 simm s
  | .andi rd_rs1 simm => Sys2Proof.Machine.execAndi rd_rs1 simm s
  | .xori rd_rs1 simm => Sys2Proof.Machine.execXori rd_rs1 simm s
  | .li rd_rs1 simm => Sys2Proof.Machine.execLi rd_rs1 simm s
  | .beq rs1 rs2 boff => Sys2Proof.Machine.execBeq rs1 rs2 boff s
  | .bne rs1 rs2 boff => Sys2Proof.Machine.execBne rs1 rs2 boff s
  | .bz rs1 boff => Sys2Proof.Machine.execBz rs1 boff s
  | .bnz rs1 boff => Sys2Proof.Machine.execBnz rs1 boff s
  | .blt rs1 rs2 boff => Sys2Proof.Machine.execBlt rs1 rs2 boff s
  | .bge rs1 rs2 boff => Sys2Proof.Machine.execBge rs1 rs2 boff s
  | .bltu rs1 rs2 boff => Sys2Proof.Machine.execBltu rs1 rs2 boff s
  | .bgeu rs1 rs2 boff => Sys2Proof.Machine.execBgeu rs1 rs2 boff s
  | .sb rs2 rs1 moff => Sys2Proof.Machine.execSb rs2 rs1 moff s
  | .sw rs2 rs1 moff => Sys2Proof.Machine.execSw rs2 rs1 moff s
  | .lb rd rs2 moff => Sys2Proof.Machine.execLb rd rs2 moff s
  | .lw rd rs2 moff => Sys2Proof.Machine.execLw rd rs2 moff s
  | .lbu rd rs2 moff => Sys2Proof.Machine.execLbu rd rs2 moff s
  | .j jimm => Sys2Proof.Machine.execJ jimm s
  | .jal rd jimm => Sys2Proof.Machine.execJal rd jimm s
  | .lui rd uimm9 => Sys2Proof.Machine.execLui rd uimm9 s
  | .auipc rd uimm9 => Sys2Proof.Machine.execAuipc rd uimm9 s
  | .ecall service => Sys2Proof.Machine.execEcall service s

end Sys2Proof.Machine
end

