-- ==== Sys2Proof/Machine/Engine.lean ====
section
/-! DEFINITION. The fetch-decode-execute engine: the stop tests, the fetch, the step and its outcomes (40_engine.md R81 to R86). -/

namespace Sys2Proof.Machine

/-- Line 1 of the step: `pc >= program_size` (R81). -/
def atEnd (s : State) : Bool := decide (s.programSize ≤ s.pc.toNat)

/-- Line 2 of the step: `icount >= CYCLE_BUDGET` (R81; log 10). -/
def budgetSpent (s : State) : Bool := decide (Config.cycleBudget ≤ s.icount)

/-- The stop of line 2: the notice that names the current `pc`, then the stop (R81, R223). -/
def stopOnBudget (s : State) : State := (s.emit (.budgetNotice s.pc)).stop .cycleBudgetExceeded

/-- Line 3: the instruction word at `pc` (R32, R37, R48). -/
def fetch (s : State) : Except Fault Word := memRead16 s.mem s.pc.toNat

/-- Lines 4 and 5: `Trace(pc, w)` before any effect of the instruction, then the count (R81, R82). -/
def beginInstruction (w : Word) (s : State) : State :=
  { s.emit (.trace s.pc w) with icount := s.icount + 1 }

/-- An unknown encoding: a diagnostic, and the next word (R86, R222; log 16). -/
def stepOverUnknown (w : Word) (s : State) : State := (s.emit (.diagnostic s.pc w)).advance

/-- Line 6: execute `w` at `pc` (R85, R86). -/
def executeWord (w : Word) (s : State) : Outcome :=
  match decodeWord w with
  | .ok i => exec i s
  | .error _ => .next (stepOverUnknown w s)

/-- The step's answer from the instruction's outcome: a fault stops the run and leaves the state the instruction started from
(R83, R221; log 3). -/
def settle (s : State) (o : Outcome) : Outcome :=
  match o with
  | .next t => .next t
  | .fault f => .next (s.takeFault f)
  | .refused r => .refused r

/-- One step of the engine (R81). A stopped core takes no step: its state stays (R22; log 2). -/
def engineStep (s : State) : Outcome :=
  match s.status with
  | .stopped _ => .next s
  | .running =>
    if atEnd s then .next (s.stop .endOfProgram)
    else if budgetSpent s then .next (stopOnBudget s)
    else
      match fetch s with
      | .error f => .next (s.takeFault f)
      | .ok w => settle (beginInstruction w s) (executeWord w (beginInstruction w s))

/-- The word stored at `pc`, low byte first, with the run brought to where the very next step fetches it: running, `pc` inside
the program, the budget not used up (log 27). Where no word fits at `pc` memory stays as it is. -/
def placeInstruction (s : State) (w : Word) : State :=
  { s with
    mem := match memWrite16 s.mem s.pc.toNat w with
      | .ok m => m
      | .error _ => s.mem
    programSize := max s.programSize (min Config.memSize (s.pc.toNat + 2))
    status := .running
    icount := min s.icount (Config.cycleBudget - 1) }

end Sys2Proof.Machine
end

