-- ==== Sys2Proof/Machine/Step.lean ====
section
/-! DEFINITION. The step of the core (40_engine.md R81) and the host's way to place one instruction where it is fetched. -/

namespace Sys2Proof.Machine

/-- One step of the engine (R81). -/
def step (s : State) : Host.Outcome State Fault Refusal := engineStep s

/-- The state with the instruction of `nbits` bits `w` stored where the next step fetches (log 27). -/
def State.withFetchWord (s : State) (nbits w : Nat) : State := placeInstruction s (BitVec.ofNat 16 (w % 2 ^ nbits))

end Sys2Proof.Machine
end

