-- ==== Sys2Proof/Machine/Output.lean ====
section
/-! DEFINITION. The text of environment calls (48_sys.md R200 to R205): the lines of an `EcallOutput` event as bytes (log 17). -/

namespace Sys2Proof.Machine

/-- The bytes of ASCII characters. -/
def asciiBytes (cs : List Char) : List Byte := cs.map fun c => BitVec.ofNat 8 c.toNat

/-- The decimal digits of `n` before `acc`, with `fuel` digits at most. -/
def decimalFrom : Nat → Nat → List Byte → List Byte
  | 0, _, acc => acc
  | fuel + 1, n, acc =>
    let digits := BitVec.ofNat 8 (48 + n % 10) :: acc
    if n / 10 = 0 then digits else decimalFrom fuel (n / 10) digits

/-- `n` in decimal, no leading zeros (R202, R205). -/
def decimalBytes (n : Nat) : List Byte := decimalFrom (n + 1) n []

/-- An integer in decimal: a leading `-` for negative values, no `+` (R202). -/
def decimalIntBytes (n : Int) : List Byte :=
  if n < 0 then asciiBytes ['-'] ++ decimalBytes n.natAbs else decimalBytes n.natAbs

/-- The literal text `Print integer: ` (R202). -/
def printIntegerText : List Byte :=
  asciiBytes ['P', 'r', 'i', 'n', 't', ' ', 'i', 'n', 't', 'e', 'g', 'e', 'r', ':', ' ']

/-- The literal text `Print string: ` (R204). -/
def printStringText : List Byte :=
  asciiBytes ['P', 'r', 'i', 'n', 't', ' ', 's', 't', 'r', 'i', 'n', 'g', ':', ' ']

/-- The literal text `ecall ` (R205). -/
def ecallText : List Byte := asciiBytes ['e', 'c', 'a', 'l', 'l', ' ']

/-- The literal text `terminate simulation` (R203). -/
def terminateText : List Byte :=
  asciiBytes ['t', 'e', 'r', 'm', 'i', 'n', 'a', 't', 'e', ' ', 's', 'i', 'm', 'u', 'l', 'a', 't', 'i', 'o', 'n']

/-- The one or two lines of an environment call's output, without line breaks (R98, R200). -/
def EcallOutput.lines : EcallOutput → List (List Byte)
  | .printInteger v => [printIntegerText ++ decimalIntBytes v]
  | .terminate => [ecallText ++ decimalBytes 3, ecallText ++ terminateText]
  | .printString bs => [printStringText ++ bs]
  | .other n => [ecallText ++ decimalBytes n]

/-- The output as written to the host: each line ends with one line feed (R201; log 17). -/
def EcallOutput.text (o : EcallOutput) : List Byte := o.lines.flatMap fun l => l ++ [0x0A#8]

end Sys2Proof.Machine
end

