-- ==== Sys2Proof/Safety.lean ====
section
/-! DEFINITION. The terms in which claims about the core are stated: the spec's notation (00_scope.md R6 to R8) written
independently of the decoder, what an instruction may change, the invariant of the machine, and what a safe run is. -/

namespace Sys2Proof.Safety

open Sys2Proof.Machine

/-! ### The spec's notation -/

/-- `w[hi:lo] = (w >> lo) mod 2^(hi-lo+1)` (R6). -/
def slice (w : Word) (hi lo : Nat) : Nat := w.toNat / 2 ^ lo % 2 ^ (hi - lo + 1)

/-- `sext_N(v)`: `v` if `v < 2^(N-1)`, else `v - 2^N` (R8). -/
def sext (n v : Nat) : Int := if v < 2 ^ (n - 1) then v else (v : Int) - 2 ^ n

/-- The register of an index, by the table of R11. -/
def regOfIndex (k : Nat) : Reg := [Reg.t0, .ra, .sp, .s0, .s1, .t1, .a0, .a1].getD k .t0

/-- The register that the field `w[lo+2:lo]` selects (R9, R11). -/
def regAt (w : Word) (lo : Nat) : Reg := regOfIndex (slice w (lo + 2) lo)

/-- The nine immediate bits of the J and U formats: `(w[14:9] << 3) | w[5:3]` (R65, R66). -/
def imm9 (w : Word) : Nat := slice w 14 9 * 8 + slice w 5 3

/-- Every word of the row `w & mask == pat` is the instruction that `operands` reads from its fields (R60). -/
def encodedAs (mask pat : Word) (operands : Word → Instr) : Prop :=
  ∀ w : Word, w &&& mask = pat → decodeWord w = .ok (operands w)

/-! ### What an instruction may change -/

/-- Every register but `dest` is as before. -/
def sameRegistersBut (dest : Option Reg) (s t : State) : Prop := ∀ r : Reg, dest ≠ some r → t.reg r = s.reg r

/-- Every byte of memory reads as before. -/
def sameMemory (s t : State) : Prop := ∀ a : Nat, t.byteAt a = s.byteAt a

/-- Every byte of memory outside the `n` bytes at `ea` reads as before. -/
def sameMemoryOutside (ea : Int) (n : Nat) (s t : State) : Prop :=
  ∀ a : Nat, ((a : Int) < ea ∨ ea + n ≤ a) → t.byteAt a = s.byteAt a

/-- Program size, run status, instruction count and event sequence are as before. -/
def sameRun (s t : State) : Prop :=
  t.programSize = s.programSize ∧ t.status = s.status ∧ t.icount = s.icount ∧ t.events = s.events

/-- The instruction completes: `rd` receives `v`, `pc` becomes `u16(pc + 2)`, and nothing else changes. -/
def completesWriting (i : Instr) (rd : Reg) (v : Word) (s : State) : Prop :=
  ∃ t, exec i s = .next t ∧ t.reg rd = v ∧ t.pc = u16 (s.pc.toNat + 2) ∧
    sameRegistersBut (some rd) s t ∧ sameMemory s t ∧ sameRun s t

/-- The instruction completes: `pc` becomes `target`, and nothing else changes. -/
def completesAt (i : Instr) (target : Word) (s : State) : Prop :=
  ∃ t, exec i s = .next t ∧ t.pc = target ∧ sameRegistersBut none s t ∧ sameMemory s t ∧ sameRun s t

/-- The register an instruction writes, if any (R13). -/
def destination : Instr → Option Reg
  | .add rd _ => some rd
  | .sub rd _ => some rd
  | .slt rd _ => some rd
  | .sltu rd _ => some rd
  | .sll rd _ => some rd
  | .srl rd _ => some rd
  | .sra rd _ => some rd
  | .or rd _ => some rd
  | .and rd _ => some rd
  | .xor rd _ => some rd
  | .mv rd _ => some rd
  | .jr _ => none
  | .jalr rd _ => some rd
  | .addi rd _ => some rd
  | .slti rd _ => some rd
  | .sltui rd _ => some rd
  | .slli rd _ => some rd
  | .srli rd _ => some rd
  | .srai rd _ => some rd
  | .ori rd _ => some rd
  | .andi rd _ => some rd
  | .xori rd _ => some rd
  | .li rd _ => some rd
  | .beq _ _ _ => none
  | .bne _ _ _ => none
  | .bz _ _ => none
  | .bnz _ _ => none
  | .blt _ _ _ => none
  | .bge _ _ _ => none
  | .bltu _ _ _ => none
  | .bgeu _ _ _ => none
  | .sb _ _ _ => none
  | .sw _ _ _ => none
  | .lb rd _ _ => some rd
  | .lw rd _ _ => some rd
  | .lbu rd _ _ => some rd
  | .j _ => none
  | .jal rd _ => some rd
  | .lui rd _ => some rd
  | .auipc rd _ => some rd
  | .ecall _ => none

/-- The data access an instruction makes: the effective address and the number of bytes (R40, R45). -/
def dataAccess (s : State) : Instr → Option (Int × Nat)
  | .sb _ rs1 moff => some (effectiveAddress rs1 moff s, 1)
  | .sw _ rs1 moff => some (effectiveAddress rs1 moff s, 2)
  | .lb _ rs2 moff => some (effectiveAddress rs2 moff s, 1)
  | .lw _ rs2 moff => some (effectiveAddress rs2 moff s, 2)
  | .lbu _ rs2 moff => some (effectiveAddress rs2 moff s, 1)
  | _ => none

/-- The bytes an instruction stores to: address and number (R160 to R162). -/
def storedBytes (s : State) : Instr → Option (Int × Nat)
  | .sb _ rs1 moff => some (effectiveAddress rs1 moff s, 1)
  | .sw _ rs1 moff => some (effectiveAddress rs1 moff s, 2)
  | _ => none

/-- The instructions that copy a register into `pc` (R17). -/
def jumpsThroughRegister : Instr → Bool
  | .jr _ => true
  | .jalr _ _ => true
  | _ => false

/-! ### The machine's invariant -/

/-- A `Trace` event. -/
def isTrace : Event → Bool
  | .trace _ _ => true
  | _ => false

/-- The access of `n` bytes at `a` leaves 0 ... 65535 (R38). -/
def leavesMemory (a : Int) (n : Nat) : Prop := a < 0 ∨ 65536 < a + n

/-- What every step keeps. -/
structure Inv (s : State) : Prop where
  /-- memory is in canonical form -/
  memoryCanonical : s.mem.wf = true
  /-- R24 -/
  programSizeFits : s.programSize ≤ 65536
  /-- R23, R87 -/
  countWithinBudget : s.icount ≤ 10000
  /-- R23, R98: one `Trace` for every instruction counted -/
  oneTracePerInstruction : s.events.countP isTrace = s.icount
  /-- R83 -/
  endOfProgramReached : s.status = .stopped .endOfProgram → s.programSize ≤ s.pc.toNat
  /-- R83, R223 -/
  budgetUsedUp : s.status = .stopped .cycleBudgetExceeded →
    s.icount = 10000 ∧ s.pc.toNat < s.programSize ∧ s.events.getLast? = some (.budgetNotice s.pc)
  /-- R83, R203 -/
  haltAnnounced : s.status = .stopped .halt → s.events.getLast? = some (.ecallOutput .terminate)
  /-- R83, R221 -/
  faultOutOfBounds : ∀ a n, s.status = .stopped (.fault (.memoryBounds a n)) → leavesMemory a n ∧ (n = 1 ∨ n = 2)

/-! ### Runs -/

/-- The state after `k` steps of a run of `image` (R87). -/
def runOf (image : List Byte) (k : Nat) : Outcome := Host.Core.run Sys2Proof.core k (State.load image)

/-- A run of `image` is safe when no number of steps ends in `Fault` (R83). -/
def safeRun (image : List Byte) : Prop :=
  ∀ k t f, runOf image k = .next t → t.status ≠ .stopped (.fault f)

/-- A run of `image` ends normally: by `Halt` or `EndOfProgram` (R83). -/
def endsNormally (image : List Byte) : Prop :=
  ∃ k t, runOf image k = .next t ∧ (t.status = .stopped .halt ∨ t.status = .stopped .endOfProgram)

/-- The state of an answer that has one. -/
def nextState : Outcome → Option State
  | .next t => some t
  | _ => none

/-- The number that decimal digits denote. -/
def denotes (digits : List Byte) : Nat := digits.foldl (fun acc d => acc * 10 + (d.toNat - 48)) 0

end Sys2Proof.Safety
end

