-- ==== Sys2Proof/Certificates/Slice0/Obligations.lean ====
section
/-! DEFINITION. The statements about the model for the provers. Where a statement rests on a decision the spec marks as its own,
its docstring names it and its basis in OBLIGATIONS.json is 'derived'. Where only `pc + 2` or a link could wrap, the `u16` is that of R7 and R8
(`pc <- t` sets `u16(t)`; the spec repeats it as D2, log 5). -/

open Sys2Proof Sys2Proof.Machine Sys2Proof.Safety

/-! ### Notation and encoding -/

/-- R6, R7: the two readings of a word, and `u16` as the residue modulo 65 536. -/
def Obligations.WordReadingsAreResidueAndTwosComplement : Prop :=
  (∀ n : Int, ((u16 n).toNat : Int) = n % 65536) ∧
  (∀ v : Word, signed v = if v.toNat < 32768 then (v.toNat : Int) else (v.toNat : Int) - 65536) ∧
  (∀ v : Word, u16 (signed v) = v)

/-- One word of each family, written out from its format (R52 to R59), decodes to the instruction it stands for. -/
def Obligations.WrittenOutWordsDecode : Prop :=
  decodeWord (0b1000#4 ++ 0b110#3 ++ 0b001#3 ++ 0b000#3 ++ 0b000#3) = .ok (.jalr .ra .a0) ∧
  decodeWord (0b1111111#7 ++ 0b000#3 ++ 0b000#3 ++ 0b001#3) = .ok (.addi .t0 (-1)) ∧
  decodeWord (0b100#3 ++ 0b1111#4 ++ 0b110#3 ++ 0b011#3 ++ 0b001#3) = .ok (.srai .a0 15) ∧
  decodeWord (0b1101#4 ++ 0b001#3 ++ 0b000#3 ++ 0b001#3 ++ 0b010#3) = .ok (.bne .t0 .ra (-3)) ∧
  decodeWord (0b1110#4 ++ 0b000#3 ++ 0b010#3 ++ 0b001#3 ++ 0b011#3) = .ok (.sw .t0 .sp (-2)) ∧
  decodeWord (0b1111#4 ++ 0b010#3 ++ 0b100#3 ++ 0b100#3 ++ 0b100#3) = .ok (.lbu .s1 .sp (-1)) ∧
  decodeWord (0b1#1 ++ 0b111111#6 ++ 0b001#3 ++ 0b100#3 ++ 0b101#3) = .ok (.jal .ra (-4)) ∧
  decodeWord (0b0#1 ++ 0b101010#6 ++ 0b011#3 ++ 0b101#3 ++ 0b110#3) = .ok (.lui .s0 341) ∧
  decodeWord (0b0000000011#10 ++ 0b000#3 ++ 0b111#3) = .ok (.ecall 3)

/-- Decode and encode agree, for every instruction and every operand value the encoding admits. -/
def Obligations.EncodeThenDecodeGivesTheInstruction : Prop :=
  ∀ i : Instr, i.wellFormed = true → decodeWord (encode i) = .ok i

/-- The other direction: what the decoder reads is well formed, and encoding it gives the word back with the ignored fields of
R67 at 0 (`rs2` of `jr`, `bz`, `bnz`; `rd` of `j`; the spec's decision D14, log 15). -/
def Obligations.DecodeThenEncodeGivesTheWordButIgnoredFields : Prop :=
  ∀ (w : Word) (i : Instr), decodeWord w = .ok i → i.wellFormed = true ∧ encode i = w &&& i.careMask

/-- The decoder, written from the fields, and the masks of the opcode map R60 agree: a decoded word lies in the row of its
instruction, a word of a row decodes to an instruction of that row, and rows do not overlap. The names of the B rows rest on the
spec's decision D13 (log 14). -/
def Obligations.DecoderFollowsTheOpcodeMap : Prop :=
  (∀ (w : Word) (i : Instr), decodeWord w = .ok i → i.rowMatches w) ∧
  (∀ (w : Word) (i : Instr), i.rowMatches w → ∃ k, decodeWord w = .ok k ∧ k.row = i.row) ∧
  (∀ (w : Word) (i k : Instr), i.rowMatches w → k.rowMatches w → i.row = k.row)

/-- R68: the unknown encodings are exactly those of its table, family by family (selecting fields compared in full: the spec's
decision D14, log 15). -/
def Obligations.UnknownEncodingsAreThoseOfTheTable : Prop :=
  ∀ w : Word, decodeWord w = .error (.unknownEncoding w) ↔
    (slice w 2 0 = 0 ∧ (slice w 15 12, slice w 5 3) ∉
      [(0, 0), (1, 0), (0, 1), (0, 2), (2, 3), (4, 3), (8, 3), (1, 4), (0, 5), (0, 6), (0, 7), (4, 0), (8, 0)]) ∨
    (slice w 2 0 = 1 ∧ slice w 5 3 = 3 ∧ slice w 15 13 ∉ [1, 2, 4]) ∨
    (slice w 2 0 = 3 ∧ slice w 5 3 ∉ [0, 1]) ∨
    (slice w 2 0 = 4 ∧ slice w 5 3 ∉ [0, 1, 4]) ∨
    (slice w 2 0 = 7 ∧ slice w 5 3 ≠ 0)

/-! ### Memory -/

/-- R34: `MemRead(a, n)` for `n` = 1, 2. -/
def Obligations.MemReadChecksBoundsThenReadsLittleEndian : Prop :=
  ∀ (m : Memory) (a : Int),
    (a < 0 ∨ a > 65535 → memRead8 m a = .error (.memoryBounds a 1)) ∧
    (0 ≤ a ∧ a ≤ 65535 → memRead8 m a = .ok (m.get a.toNat)) ∧
    (a < 0 ∨ a + 1 > 65535 → memRead16 m a = .error (.memoryBounds a 2)) ∧
    (0 ≤ a ∧ a + 1 ≤ 65535 →
      ∃ v, memRead16 m a = .ok v ∧ v.toNat = (m.get a.toNat).toNat + 256 * (m.get (a.toNat + 1)).toNat)

/-- `MemWrite(a, n, v)` of R35 for `n` = 1, 2, byte for byte. That a failed check writes nothing is the spec's decision D7 (log 9):
the write answers no memory. -/
def Obligations.MemWriteChecksBoundsThenWritesItsBytes : Prop :=
  ∀ (m : Memory) (a : Int) (v : Word),
    (a < 0 ∨ a > 65535 → memWrite8 m a v = .error (.memoryBounds a 1)) ∧
    (0 ≤ a ∧ a ≤ 65535 → ∃ m', memWrite8 m a v = .ok m' ∧
      ∀ b : Nat, (m'.get b).toNat = if (b : Int) = a then v.toNat % 256 else (m.get b).toNat) ∧
    (a < 0 ∨ a + 1 > 65535 → memWrite16 m a v = .error (.memoryBounds a 2)) ∧
    (0 ≤ a ∧ a + 1 ≤ 65535 → ∃ m', memWrite16 m a v = .ok m' ∧
      ∀ b : Nat, (m'.get b).toNat =
        if (b : Int) = a then v.toNat % 256 else if (b : Int) = a + 1 then v.toNat / 256 else (m.get b).toNat)

/-- R31: little-endian word memory, and a word written at `a <= 0xFFFE` reads back. -/
def Obligations.WordMemoryIsLittleEndianAndReadsBack : Prop :=
  ∀ (m : Memory) (a : Int) (v : Word), 0 ≤ a → a ≤ 0xFFFE →
    (∃ m', memWrite16 m a v = .ok m' ∧ (m'.get a.toNat).toNat = v.toNat % 256 ∧
      (m'.get (a.toNat + 1)).toNat = v.toNat / 256 ∧ memRead16 m' a = .ok v) ∧
    (∃ u, memRead16 m a = .ok u ∧ u.toNat = (m.get a.toNat).toNat + 256 * (m.get (a.toNat + 1)).toNat)

/-! ### Reset, loading and the invariant -/

/-- The reset values of every piece of state (R26, R250). `icount` and status rest on the spec's decision D21; that no image is loaded at
`State.reset` (`programSize` 0, no byte listed) and that no event precedes a run are the model's choices (log 1, log 4). -/
def Obligations.ResetGivesEveryPieceItsValue : Prop :=
  State.reset.reg .sp = 0xFFFE#16 ∧ (∀ r : Reg, r ≠ .sp → State.reset.reg r = 0#16) ∧ State.reset.pc = 0#16 ∧
  State.reset.status = .running ∧ State.reset.icount = 0 ∧ (∀ a : Nat, State.reset.byteAt a = 0#8) ∧
  State.reset.programSize = 0 ∧ State.reset.events = []

/-- R251, R252: first start with an image; registers, `pc`, count and status are those of reset, and an empty image stops the first
step with `EndOfProgram` (which the spec derives from R81). Count and status rest on the spec's decision D21 (log 28). The model's choices in it:
the empty event list (log 4), and, in `Inv`, memory in canonical form (log 26) and the events field. -/
def Obligations.LoadPlacesTheImageAtAddressZero : Prop :=
  (∀ image : List Byte, image.length ≤ 65536 →
    (∀ a : Nat, (State.load image).byteAt a = image.getD a 0#8) ∧
    (State.load image).programSize = image.length ∧ (State.load image).regs = State.reset.regs ∧
    (State.load image).pc = 0#16 ∧ (State.load image).status = .running ∧ (State.load image).icount = 0 ∧
    (State.load image).events = [] ∧ Inv (State.load image)) ∧
  step (State.load []) = .next ((State.load []).stop .endOfProgram)

/-- The invariant holds at reset (R26). It uses the model's choices for the empty event list (log 4), `programSize` 0 (log 1) and the canonical
form of memory (log 26), and the spec's decision D21 for count and status (log 28). -/
def Obligations.InvariantHoldsAtReset : Prop := Inv State.reset

/-- Every step keeps the invariant: memory canonical, the program size within memory, the count within the budget, one `Trace` per counted
instruction, and each stop reason true of the state it left. The canonical form and the event list are the model's choices (log 26, log 4), as is
the step of a stopped core (log 2); the stop tests and the count are the spec's decisions D9 and D21 (log 10), what faults and halts leave D7 and
D8 (log 9), the fault record D27 (log 28). -/
def Obligations.EveryStepKeepsTheInvariant : Prop :=
  ∀ s t : State, Inv s → step s = .next t → Inv t

/-! ### The engine -/

/-- A step runs the decoded instruction (R81, R85): after the stop tests, the fetch, the `Trace` and the count, the step is `exec` of the decoded
instruction; a fault of it becomes the run status (log 3). The clause on a fault equates the whole state, `pc` included: that a fault leaves `pc`,
registers and memory is the spec's decision D7 (log 9), and entry U3 asks that no claim about a program rest on that `pc`. -/
def Obligations.StepRunsTheDecodedInstruction : Prop :=
  ∀ (s : State) (w : Word) (i : Instr),
    s.status = .running → s.pc.toNat < s.programSize → s.icount < 10000 →
    memRead16 s.mem s.pc.toNat = .ok w → decodeWord w = .ok i →
    (∀ t, exec i (beginInstruction w s) = .next t → step s = .next t) ∧
    (∀ f, exec i (beginInstruction w s) = .fault f → step s = .next ((beginInstruction w s).takeFault f)) ∧
    (beginInstruction w s).events = s.events ++ [.trace s.pc w] ∧
    (beginInstruction w s).icount = s.icount + 1 ∧
    (beginInstruction w s).regs = s.regs ∧ (beginInstruction w s).pc = s.pc ∧ (beginInstruction w s).mem = s.mem ∧
    (beginInstruction w s).programSize = s.programSize ∧ (beginInstruction w s).status = .running

/-- Every step of every state answers a next state: no instruction and no word is refused, and a fault is a stop of the run (R83; log 3). For a stopped core the spec
defines no step (R22, R81): that its step answers a next state is the model's choice (log 2). -/
def Obligations.EveryStepAnswersANextState : Prop :=
  ∀ s : State, ∃ t, step s = .next t

/-- A stopped core keeps its state (R22); that a step of it answers that state is the model's choice (log 2). -/
def Obligations.StoppedCoreKeepsItsState : Prop :=
  ∀ (s : State) (r : StopReason), s.status = .stopped r → step s = .next s

/-- The two stop tests in their order (R81 lines 1 and 2, R223). The order and the exact count are the spec's decision D9 (log 10). -/
def Obligations.StopTestsComeInOrder : Prop :=
  ∀ s : State, s.status = .running →
    (s.programSize ≤ s.pc.toNat → ∃ t, step s = .next t ∧ t.status = .stopped .endOfProgram ∧ t.pc = s.pc ∧ t.icount = s.icount ∧
      t.programSize = s.programSize ∧ t.events = s.events ∧ sameRegistersBut none s t ∧ sameMemory s t) ∧
    (s.pc.toNat < s.programSize → 10000 ≤ s.icount → ∃ t, step s = .next t ∧ t.status = .stopped .cycleBudgetExceeded ∧ t.pc = s.pc ∧
      t.icount = s.icount ∧ t.programSize = s.programSize ∧ t.events = s.events ++ [.budgetNotice s.pc] ∧
      sameRegistersBut none s t ∧ sameMemory s t)

/-- The fetch at `pc = 0xFFFF` faults before the `Trace` and before the count (the spec's decisions D6, D7; log 8, 9). -/
def Obligations.FetchAtTheLastByteFaultsBeforeTheTrace : Prop :=
  ∀ s : State, s.status = .running → s.pc = 0xFFFF#16 → s.pc.toNat < s.programSize → s.icount < 10000 →
    ∃ t, step s = .next t ∧ t.status = .stopped (.fault (.memoryBounds 65535 2)) ∧ t.events = s.events ∧
      t.icount = s.icount ∧ t.programSize = s.programSize ∧ sameRegistersBut none s t ∧ sameMemory s t

/-- R86, R222: an unknown encoding is reported and stepped over. The event without text is the spec's decision D15 (log 16). -/
def Obligations.UnknownEncodingIsReportedAndSteppedOver : Prop :=
  ∀ (s : State) (w : Word), s.status = .running → s.pc.toNat < s.programSize → s.icount < 10000 →
    memRead16 s.mem s.pc.toNat = .ok w → decodeWord w = .error (.unknownEncoding w) →
    ∃ t, step s = .next t ∧ t.pc = u16 (s.pc.toNat + 2) ∧ t.events = s.events ++ [.trace s.pc w, .diagnostic s.pc w] ∧
      t.icount = s.icount + 1 ∧ t.status = .running ∧ t.programSize = s.programSize ∧
      sameRegistersBut none s t ∧ sameMemory s t

/-- R221: an instruction that faults changes no register and no byte; its `Trace` and its count stay; the run stops with the fault. The state
after a fault is the spec's decision D7; nothing is said of `pc` (U3; log 9). -/
def Obligations.FaultingInstructionStopsTheRunWithoutEffect : Prop :=
  ∀ (s : State) (w : Word) (i : Instr) (f : Fault), s.status = .running → s.pc.toNat < s.programSize → s.icount < 10000 →
    memRead16 s.mem s.pc.toNat = .ok w → decodeWord w = .ok i → exec i (beginInstruction w s) = .fault f →
    ∃ t, step s = .next t ∧ t.status = .stopped (.fault f) ∧ t.events = s.events ++ [.trace s.pc w] ∧
      t.icount = s.icount + 1 ∧ t.programSize = s.programSize ∧ sameRegistersBut none s t ∧ sameMemory s t

/-- R87: every run ends. From every state, at most 10 001 steps reach a stopped state (10 000 executed instructions and one stopping step; the
exact count is the spec's decision D9, log 10). -/
def Obligations.EveryRunStopsWithinTheBudget : Prop :=
  ∀ s : State, ∃ (k : Nat) (t : State) (r : StopReason),
    k ≤ 10001 ∧ Host.Core.run Sys2Proof.core k s = .next t ∧ t.status = .stopped r

/-- R82, R98: a step only appends to the event sequence; a step that fetches appends `Trace(pc, w)` first and at most one event after it, which
is no `Trace`; a step that does not fetch appends nothing or the budget notice. The sequence as a field of State and the step of a stopped core are
the model's choices (log 4, log 2); that a faulting fetch has no `Trace` is the spec's decision D7 (log 9). -/
def Obligations.EventsAreAppendedTraceFirst : Prop :=
  ∀ s t : State, step s = .next t →
    t.events = s.events ∨ t.events = s.events ++ [.budgetNotice s.pc] ∨
    ∃ w, memRead16 s.mem s.pc.toNat = .ok w ∧
      (t.events = s.events ++ [.trace s.pc w] ∨
       ∃ e, isTrace e = false ∧ t.events = s.events ++ [.trace s.pc w, e])

/-! ### Whole-machine rules over all instructions -/

/-- R160 "Stores are the only instructions that change memory", and a store changes only its own bytes. -/
def Obligations.OnlyStoresChangeMemoryAndOnlyTheirBytes : Prop :=
  ∀ (i : Instr) (s t : State), exec i s = .next t →
    (storedBytes s i = none → sameMemory s t) ∧
    (∀ ea n, storedBytes s i = some (ea, n) → sameMemoryOutside ea n s t)

/-- R13: an instruction changes no register but its destination. -/
def Obligations.OnlyTheDestinationRegisterChanges : Prop :=
  ∀ (i : Instr) (s t : State), exec i s = .next t → sameRegistersBut (destination i) s t

/-- R23, R24: no instruction changes the program size or the instruction count. -/
def Obligations.NoInstructionChangesSizeOrCount : Prop :=
  ∀ (i : Instr) (s t : State), exec i s = .next t → t.programSize = s.programSize ∧ t.icount = s.icount

/-- R83, R203: `ecall 3` is the only instruction that stops a run by itself; every other that completes leaves the status. -/
def Obligations.OnlyEcallThreeHalts : Prop :=
  ∀ (i : Instr) (s t : State), exec i s = .next t →
    (i = .ecall 3 → t.status = .stopped .halt) ∧ (i ≠ .ecall 3 → t.status = s.status)

/-- R220, R221: only loads, stores and `ecall 5` fault, with the address and size of their access, which is out of bounds. What a fault records is
the spec's decision D27, the unwrapped address D5, the string's end D17 (log 8, 18, 28). -/
def Obligations.OnlyMemoryAccessesFaultAndOnlyOutOfBounds : Prop :=
  ∀ (i : Instr) (s : State) (f : Fault), exec i s = .fault f →
    (∃ a n, dataAccess s i = some (a, n) ∧ f = .memoryBounds a n ∧ leavesMemory a n) ∨
    (i = .ecall 5 ∧ f = .memoryBounds 65536 1)

/-- R17: only `jr` and `jalr` can change the parity of `pc` (the spec's decision D28, from D2; log 5). For `ecall 3` it rests on D8 (log 9). -/
def Obligations.OnlyRegisterJumpsChangeTheParityOfPc : Prop :=
  ∀ (i : Instr) (s t : State), jumpsThroughRegister i = false → exec i s = .next t →
    t.pc.toNat % 2 = s.pc.toNat % 2

/-- R48: a word stored at `pc + 2` is the very next word fetched (the spec's decision D24; log 24). -/
def Obligations.StoreIntoTheNextWordIsFetchedNext : Prop :=
  ∀ (s : State) (rs2 rs1 : Reg) (moff : Int), effectiveAddress rs1 moff s = s.pc.toNat + 2 → s.pc.toNat + 3 ≤ 65535 →
    ∃ t, exec (.sw rs2 rs1 moff) s = .next t ∧ memRead16 t.mem t.pc.toNat = .ok (s.reg rs2)

/-! ### R-type instructions -/

/-- R100. -/
def Obligations.AddWritesTheWrappedSum : Prop :=
  encodedAs 0xF03F#16 0x0000#16 (fun w => .add (regAt w 6) (regAt w 9)) ∧
  ∀ (rd rs2 : Reg) (s : State),
    completesWriting (.add rd rs2) rd (u16 ((s.reg rd).toNat + (s.reg rs2).toNat)) s

/-- R101. -/
def Obligations.SubWritesTheWrappedDifference : Prop :=
  encodedAs 0xF03F#16 0x1000#16 (fun w => .sub (regAt w 6) (regAt w 9)) ∧
  ∀ (rd rs2 : Reg) (s : State),
    completesWriting (.sub rd rs2) rd (u16 ((s.reg rd).toNat - (s.reg rs2).toNat)) s

/-- R102. -/
def Obligations.SltWritesTheSignedComparison : Prop :=
  encodedAs 0xF03F#16 0x0008#16 (fun w => .slt (regAt w 6) (regAt w 9)) ∧
  ∀ (rd rs2 : Reg) (s : State),
    completesWriting (.slt rd rs2) rd (if signed (s.reg rd) < signed (s.reg rs2) then 1#16 else 0#16) s

/-- R103; that the result is 1 or 0 in `rd_rs1`, in this operand order, is the spec's decision D20 (log 19). -/
def Obligations.SltuWritesTheUnsignedComparison : Prop :=
  encodedAs 0xF03F#16 0x0010#16 (fun w => .sltu (regAt w 6) (regAt w 9)) ∧
  ∀ (rd rs2 : Reg) (s : State),
    completesWriting (.sltu rd rs2) rd (if (s.reg rd).toNat < (s.reg rs2).toNat then 1#16 else 0#16) s

/-- R104. -/
def Obligations.SllShiftsLeftByTheLowFourBits : Prop :=
  encodedAs 0xF03F#16 0x2018#16 (fun w => .sll (regAt w 6) (regAt w 9)) ∧
  ∀ (rd rs2 : Reg) (s : State),
    completesWriting (.sll rd rs2) rd (u16 ((s.reg rd).toNat * 2 ^ ((s.reg rs2).toNat % 16))) s

/-- R105. -/
def Obligations.SrlShiftsRightByTheLowFourBits : Prop :=
  encodedAs 0xF03F#16 0x4018#16 (fun w => .srl (regAt w 6) (regAt w 9)) ∧
  ∀ (rd rs2 : Reg) (s : State),
    completesWriting (.srl rd rs2) rd (u16 ((s.reg rd).toNat / 2 ^ ((s.reg rs2).toNat % 16))) s

/-- R106; that the amount is masked to four bits is the spec's decision D11 (log 12). -/
def Obligations.SraShiftsTheSignedValueByTheLowFourBits : Prop :=
  encodedAs 0xF03F#16 0x8018#16 (fun w => .sra (regAt w 6) (regAt w 9)) ∧
  ∀ (rd rs2 : Reg) (s : State),
    completesWriting (.sra rd rs2) rd (u16 (Int.fdiv (signed (s.reg rd)) (2 ^ ((s.reg rs2).toNat % 16)))) s

/-- R107 to R109: bit by bit over all 16 bits. The operations are read from the mnemonics (the spec's decision D12, log 13). -/
def Obligations.OrAndXorCombineBitByBit : Prop :=
  encodedAs 0xF03F#16 0x1020#16 (fun w => .or (regAt w 6) (regAt w 9)) ∧
  encodedAs 0xF03F#16 0x0028#16 (fun w => .and (regAt w 6) (regAt w 9)) ∧
  encodedAs 0xF03F#16 0x0030#16 (fun w => .xor (regAt w 6) (regAt w 9)) ∧
  ∀ (rd rs2 : Reg) (s : State),
    (∃ v : Word, completesWriting (.or rd rs2) rd v s ∧
      ∀ k : Nat, v.getLsbD k = ((s.reg rd).getLsbD k || (s.reg rs2).getLsbD k)) ∧
    (∃ v : Word, completesWriting (.and rd rs2) rd v s ∧
      ∀ k : Nat, v.getLsbD k = ((s.reg rd).getLsbD k && (s.reg rs2).getLsbD k)) ∧
    (∃ v : Word, completesWriting (.xor rd rs2) rd v s ∧
      ∀ k : Nat, v.getLsbD k = ((s.reg rd).getLsbD k != (s.reg rs2).getLsbD k))

/-- R110. -/
def Obligations.MvCopiesTheRegister : Prop :=
  encodedAs 0xF03F#16 0x0038#16 (fun w => .mv (regAt w 6) (regAt w 9)) ∧
  ∀ (rd rs2 : Reg) (s : State), completesWriting (.mv rd rs2) rd (s.reg rs2) s

/-- R112: all 16 bits, no link, nothing added. The unchecked bit 0 is the spec's decision D3, the ignored `rs2` field D14 (log 6, 15). -/
def Obligations.JrJumpsToTheRegister : Prop :=
  encodedAs 0xF03F#16 0x4000#16 (fun w => .jr (regAt w 6)) ∧
  ∀ (rd : Reg) (s : State), completesAt (.jr rd) (s.reg rd) s

/-- R113: the link is `pc + 2`; the target is `x[rs2]` when the registers differ and `pc + 2` when they are the same (the spec's decision D10,
log 11; bit 0 D3, log 6). -/
def Obligations.JalrLinksThenReadsTheTarget : Prop :=
  encodedAs 0xF03F#16 0x8000#16 (fun w => .jalr (regAt w 6) (regAt w 9)) ∧
  ∀ (rd rs2 : Reg) (s : State), ∃ t, exec (.jalr rd rs2) s = .next t ∧ t.reg rd = u16 (s.pc.toNat + 2) ∧
    t.pc = (if rd = rs2 then u16 (s.pc.toNat + 2) else s.reg rs2) ∧
    sameRegistersBut (some rd) s t ∧ sameMemory s t ∧ sameRun s t

/-! ### I-type instructions -/

/-- R120. -/
def Obligations.AddiWritesTheWrappedSum : Prop :=
  encodedAs 0x003F#16 0x0001#16 (fun w => .addi (regAt w 6) (sext 7 (slice w 15 9))) ∧
  ∀ (rd : Reg) (simm : Int) (s : State), completesWriting (.addi rd simm) rd (u16 ((s.reg rd).toNat + simm)) s

/-- R121, for every immediate of the format; left operand and result are the spec's decision D20 (log 19). -/
def Obligations.SltiWritesTheSignedComparison : Prop :=
  encodedAs 0x003F#16 0x0009#16 (fun w => .slti (regAt w 6) (sext 7 (slice w 15 9))) ∧
  ∀ (rd : Reg) (simm : Int) (s : State), -64 ≤ simm → simm ≤ 63 →
    completesWriting (.slti rd simm) rd (if signed (s.reg rd) < simm then 1#16 else 0#16) s

/-- R122, conflict C3: the comparand is the sign-extended immediate read as unsigned; the result is the spec's decision D20 (log 19). -/
def Obligations.SltuiComparesAgainstTheSignExtendedImmediate : Prop :=
  encodedAs 0x003F#16 0x0011#16 (fun w => .sltui (regAt w 6) (sext 7 (slice w 15 9))) ∧
  ∀ (rd : Reg) (simm : Int) (s : State), -64 ≤ simm → simm ≤ 63 →
    completesWriting (.sltui rd simm) rd
      (if ((s.reg rd).toNat : Int) < (if 0 ≤ simm then simm else 65536 + simm) then 1#16 else 0#16) s

/-- R123, R124, R125. -/
def Obligations.ImmediateShiftsShiftByShamt : Prop :=
  encodedAs 0xE03F#16 0x2019#16 (fun w => .slli (regAt w 6) (slice w 12 9)) ∧
  encodedAs 0xE03F#16 0x4019#16 (fun w => .srli (regAt w 6) (slice w 12 9)) ∧
  encodedAs 0xE03F#16 0x8019#16 (fun w => .srai (regAt w 6) (slice w 12 9)) ∧
  ∀ (rd : Reg) (shamt : Nat) (s : State),
    completesWriting (.slli rd shamt) rd (u16 ((s.reg rd).toNat * 2 ^ shamt)) s ∧
    completesWriting (.srli rd shamt) rd (u16 ((s.reg rd).toNat / 2 ^ shamt)) s ∧
    completesWriting (.srai rd shamt) rd (u16 (Int.fdiv (signed (s.reg rd)) (2 ^ shamt))) s

/-- R126 to R128: bit by bit with the sign-extended immediate, whose bits above 6 are copies of its sign. Operation and extension are the spec's
decision D12 (log 13). -/
def Obligations.OriAndiXoriCombineWithTheSignExtendedImmediate : Prop :=
  encodedAs 0x003F#16 0x0021#16 (fun w => .ori (regAt w 6) (sext 7 (slice w 15 9))) ∧
  encodedAs 0x003F#16 0x0029#16 (fun w => .andi (regAt w 6) (sext 7 (slice w 15 9))) ∧
  encodedAs 0x003F#16 0x0031#16 (fun w => .xori (regAt w 6) (sext 7 (slice w 15 9))) ∧
  ∀ (rd : Reg) (simm : Int) (s : State), -64 ≤ simm → simm ≤ 63 →
    ∃ imm : Word, signed imm = simm ∧
    (∃ v : Word, completesWriting (.ori rd simm) rd v s ∧
      ∀ k : Nat, v.getLsbD k = ((s.reg rd).getLsbD k || imm.getLsbD k)) ∧
    (∃ v : Word, completesWriting (.andi rd simm) rd v s ∧
      ∀ k : Nat, v.getLsbD k = ((s.reg rd).getLsbD k && imm.getLsbD k)) ∧
    (∃ v : Word, completesWriting (.xori rd simm) rd v s ∧
      ∀ k : Nat, v.getLsbD k = ((s.reg rd).getLsbD k != imm.getLsbD k))

/-- R129. -/
def Obligations.LiLoadsTheImmediate : Prop :=
  encodedAs 0x003F#16 0x0039#16 (fun w => .li (regAt w 6) (sext 7 (slice w 15 9))) ∧
  ∀ (rd : Reg) (simm : Int) (s : State), completesWriting (.li rd simm) rd (u16 simm) s

/-! ### B-type instructions -/

/-- R140 to R142, R145 to R148, R150: the six comparison branches. Pairing and conditions are the spec's decision D13 (log 14), the wrap of the
target D2 (log 5). -/
def Obligations.ComparisonBranchesAddTwoWhenTaken : Prop :=
  encodedAs 0x003F#16 0x0002#16 (fun w => .beq (regAt w 6) (regAt w 9) (sext 4 (slice w 15 12))) ∧
  encodedAs 0x003F#16 0x000A#16 (fun w => .bne (regAt w 6) (regAt w 9) (sext 4 (slice w 15 12))) ∧
  encodedAs 0x003F#16 0x0022#16 (fun w => .blt (regAt w 6) (regAt w 9) (sext 4 (slice w 15 12))) ∧
  encodedAs 0x003F#16 0x002A#16 (fun w => .bge (regAt w 6) (regAt w 9) (sext 4 (slice w 15 12))) ∧
  encodedAs 0x003F#16 0x0032#16 (fun w => .bltu (regAt w 6) (regAt w 9) (sext 4 (slice w 15 12))) ∧
  encodedAs 0x003F#16 0x003A#16 (fun w => .bgeu (regAt w 6) (regAt w 9) (sext 4 (slice w 15 12))) ∧
  ∀ (rs1 rs2 : Reg) (boff : Int) (s : State),
    completesAt (.beq rs1 rs2 boff)
      (if s.reg rs1 = s.reg rs2 then u16 (s.pc.toNat + 2 * boff + 2) else u16 (s.pc.toNat + 2)) s ∧
    completesAt (.bne rs1 rs2 boff)
      (if s.reg rs1 ≠ s.reg rs2 then u16 (s.pc.toNat + 2 * boff + 2) else u16 (s.pc.toNat + 2)) s ∧
    completesAt (.blt rs1 rs2 boff)
      (if signed (s.reg rs1) < signed (s.reg rs2) then u16 (s.pc.toNat + 2 * boff + 2) else u16 (s.pc.toNat + 2)) s ∧
    completesAt (.bge rs1 rs2 boff)
      (if signed (s.reg rs1) ≥ signed (s.reg rs2) then u16 (s.pc.toNat + 2 * boff + 2) else u16 (s.pc.toNat + 2)) s ∧
    completesAt (.bltu rs1 rs2 boff)
      (if (s.reg rs1).toNat < (s.reg rs2).toNat then u16 (s.pc.toNat + 2 * boff + 2) else u16 (s.pc.toNat + 2)) s ∧
    completesAt (.bgeu rs1 rs2 boff)
      (if (s.reg rs1).toNat ≥ (s.reg rs2).toNat then u16 (s.pc.toNat + 2 * boff + 2) else u16 (s.pc.toNat + 2)) s

/-- R140, R143, R144, R150: the two zero-test branches add no 2. Pairing, tested register and conditions are the spec's decision D13 (log 14), the
ignored field D14 (log 15), the wrap D2 (log 5). -/
def Obligations.ZeroTestBranchesAddNoTwo : Prop :=
  encodedAs 0x003F#16 0x0012#16 (fun w => .bz (regAt w 6) (sext 4 (slice w 15 12))) ∧
  encodedAs 0x003F#16 0x001A#16 (fun w => .bnz (regAt w 6) (sext 4 (slice w 15 12))) ∧
  ∀ (rs1 : Reg) (boff : Int) (s : State),
    completesAt (.bz rs1 boff)
      (if (s.reg rs1).toNat = 0 then u16 (s.pc.toNat + 2 * boff) else u16 (s.pc.toNat + 2)) s ∧
    completesAt (.bnz rs1 boff)
      (if (s.reg rs1).toNat ≠ 0 then u16 (s.pc.toNat + 2 * boff) else u16 (s.pc.toNat + 2)) s

/-! ### S-type and L-type instructions -/

/-- R161: the low byte at the effective address, which the meaning and the statement compute by `effectiveAddress`; out of bounds it faults.
That the address is not wrapped is the spec's decision D5 (log 8). -/
def Obligations.SbStoresTheLowByte : Prop :=
  encodedAs 0x003F#16 0x0003#16 (fun w => .sb (regAt w 9) (regAt w 6) (sext 4 (slice w 15 12))) ∧
  ∀ (rs2 rs1 : Reg) (moff : Int) (s : State),
    effectiveAddress rs1 moff s = (s.reg rs1).toNat + moff ∧
    (0 ≤ effectiveAddress rs1 moff s → effectiveAddress rs1 moff s ≤ 65535 →
      ∃ t, exec (.sb rs2 rs1 moff) s = .next t ∧
        (t.byteAt (effectiveAddress rs1 moff s).toNat).toNat = (s.reg rs2).toNat % 256 ∧
        t.pc = u16 (s.pc.toNat + 2) ∧ sameMemoryOutside (effectiveAddress rs1 moff s) 1 s t ∧
        sameRegistersBut none s t ∧ sameRun s t) ∧
    (effectiveAddress rs1 moff s < 0 ∨ effectiveAddress rs1 moff s > 65535 →
      exec (.sb rs2 rs1 moff) s = .fault (.memoryBounds (effectiveAddress rs1 moff s) 1))

/-- R162: the word, low byte first, at any address up to 0xFFFE, odd ones too (the spec's decision D4, log 7); out of bounds it faults (D5, log 8). -/
def Obligations.SwStoresTheWordLittleEndian : Prop :=
  encodedAs 0x003F#16 0x000B#16 (fun w => .sw (regAt w 9) (regAt w 6) (sext 4 (slice w 15 12))) ∧
  ∀ (rs2 rs1 : Reg) (moff : Int) (s : State),
    effectiveAddress rs1 moff s = (s.reg rs1).toNat + moff ∧
    (0 ≤ effectiveAddress rs1 moff s → effectiveAddress rs1 moff s + 1 ≤ 65535 →
      ∃ t, exec (.sw rs2 rs1 moff) s = .next t ∧
        (t.byteAt (effectiveAddress rs1 moff s).toNat).toNat = (s.reg rs2).toNat % 256 ∧
        (t.byteAt ((effectiveAddress rs1 moff s).toNat + 1)).toNat = (s.reg rs2).toNat / 256 ∧
        t.pc = u16 (s.pc.toNat + 2) ∧ sameMemoryOutside (effectiveAddress rs1 moff s) 2 s t ∧
        sameRegistersBut none s t ∧ sameRun s t) ∧
    (effectiveAddress rs1 moff s < 0 ∨ effectiveAddress rs1 moff s + 1 > 65535 →
      exec (.sw rs2 rs1 moff) s = .fault (.memoryBounds (effectiveAddress rs1 moff s) 2))

/-- R171. That the address is not wrapped is the spec's decision D5 (log 8). -/
def Obligations.LbLoadsTheSignExtendedByte : Prop :=
  encodedAs 0x003F#16 0x0004#16 (fun w => .lb (regAt w 6) (regAt w 9) (sext 4 (slice w 15 12))) ∧
  ∀ (rd rs2 : Reg) (moff : Int) (s : State),
    effectiveAddress rs2 moff s = (s.reg rs2).toNat + moff ∧
    (0 ≤ effectiveAddress rs2 moff s → effectiveAddress rs2 moff s ≤ 65535 →
      completesWriting (.lb rd rs2 moff) rd
        (u16 (sext 8 (s.byteAt (effectiveAddress rs2 moff s).toNat).toNat)) s) ∧
    (effectiveAddress rs2 moff s < 0 ∨ effectiveAddress rs2 moff s > 65535 →
      exec (.lb rd rs2 moff) s = .fault (.memoryBounds (effectiveAddress rs2 moff s) 1))

/-- R172. Odd addresses are the spec's decision D4 (log 7), the address that is not wrapped D5 (log 8). -/
def Obligations.LwLoadsTheWordLittleEndian : Prop :=
  encodedAs 0x003F#16 0x000C#16 (fun w => .lw (regAt w 6) (regAt w 9) (sext 4 (slice w 15 12))) ∧
  ∀ (rd rs2 : Reg) (moff : Int) (s : State),
    effectiveAddress rs2 moff s = (s.reg rs2).toNat + moff ∧
    (0 ≤ effectiveAddress rs2 moff s → effectiveAddress rs2 moff s + 1 ≤ 65535 →
      completesWriting (.lw rd rs2 moff) rd
        (u16 ((s.byteAt (effectiveAddress rs2 moff s).toNat).toNat +
          256 * (s.byteAt ((effectiveAddress rs2 moff s).toNat + 1)).toNat)) s) ∧
    (effectiveAddress rs2 moff s < 0 ∨ effectiveAddress rs2 moff s + 1 > 65535 →
      exec (.lw rd rs2 moff) s = .fault (.memoryBounds (effectiveAddress rs2 moff s) 2))

/-- R173. That the address is not wrapped is the spec's decision D5 (log 8). -/
def Obligations.LbuLoadsTheZeroExtendedByte : Prop :=
  encodedAs 0x003F#16 0x0024#16 (fun w => .lbu (regAt w 6) (regAt w 9) (sext 4 (slice w 15 12))) ∧
  ∀ (rd rs2 : Reg) (moff : Int) (s : State),
    effectiveAddress rs2 moff s = (s.reg rs2).toNat + moff ∧
    (0 ≤ effectiveAddress rs2 moff s → effectiveAddress rs2 moff s ≤ 65535 →
      completesWriting (.lbu rd rs2 moff) rd (u16 (s.byteAt (effectiveAddress rs2 moff s).toNat).toNat) s) ∧
    (effectiveAddress rs2 moff s < 0 ∨ effectiveAddress rs2 moff s > 65535 →
      exec (.lbu rd rs2 moff) s = .fault (.memoryBounds (effectiveAddress rs2 moff s) 1))

/-! ### J-type and U-type instructions -/

/-- R181: no register written, no 2 added; the ignored `rd` field is the spec's decision D14 (log 15), the wrap of the target D2 (log 5). -/
def Obligations.JJumpsByTwiceTheImmediate : Prop :=
  encodedAs 0x8007#16 0x0005#16 (fun w => .j (sext 9 (imm9 w))) ∧
  ∀ (jimm : Int) (s : State), completesAt (.j jimm) (u16 (s.pc.toNat + 2 * jimm)) s

/-- R182: link and target both from the address of the `jal`. -/
def Obligations.JalLinksAndJumps : Prop :=
  encodedAs 0x8007#16 0x8005#16 (fun w => .jal (regAt w 6) (sext 9 (imm9 w))) ∧
  ∀ (rd : Reg) (jimm : Int) (s : State), ∃ t, exec (.jal rd jimm) s = .next t ∧ t.reg rd = u16 (s.pc.toNat + 2) ∧
    t.pc = u16 (s.pc.toNat + 2 * jimm) ∧ sameRegistersBut (some rd) s t ∧ sameMemory s t ∧ sameRun s t

/-- R191. -/
def Obligations.LuiLoadsTheUpperConstant : Prop :=
  encodedAs 0x8007#16 0x0006#16 (fun w => .lui (regAt w 6) (imm9 w)) ∧
  ∀ (rd : Reg) (uimm9 : Nat) (s : State), completesWriting (.lui rd uimm9) rd (u16 (uimm9 * 2 ^ 7)) s

/-- R192. -/
def Obligations.AuipcAddsTheUpperConstantToPc : Prop :=
  encodedAs 0x8007#16 0x8006#16 (fun w => .auipc (regAt w 6) (imm9 w)) ∧
  ∀ (rd : Reg) (uimm9 : Nat) (s : State), completesWriting (.auipc rd uimm9) rd (u16 (s.pc.toNat + uimm9 * 2 ^ 7)) s

/-! ### The environment call -/

/-- R200: the four cases of `ecall`. Service 3 says nothing of `pc` (U3; log 9). Service 5 is read by `readString`, which
`PrintStringReadsUpToTheZeroByte` describes. The decimal of other services is the spec's decision D16, that nothing more is printed D18 (log 17), the
unterminated string D17 (log 18). -/
def Obligations.EcallPerformsItsService : Prop :=
  encodedAs 0x003F#16 0x0007#16 (fun w => .ecall (slice w 15 6)) ∧
  ∀ s : State,
    (∃ (t : State) (o : EcallOutput), exec (.ecall 1) s = .next t ∧ t.events = s.events ++ [.ecallOutput o] ∧
      o.lines = [printIntegerText ++ decimalIntBytes (signed (s.reg .a0))] ∧ t.pc = u16 (s.pc.toNat + 2) ∧
      sameRegistersBut none s t ∧ sameMemory s t ∧
      t.programSize = s.programSize ∧ t.status = s.status ∧ t.icount = s.icount) ∧
    (∃ (t : State) (o : EcallOutput), exec (.ecall 3) s = .next t ∧ t.events = s.events ++ [.ecallOutput o] ∧
      o.lines = [ecallText ++ asciiBytes ['3'], ecallText ++ terminateText] ∧ t.status = .stopped .halt ∧
      sameRegistersBut none s t ∧ sameMemory s t ∧
      t.programSize = s.programSize ∧ t.icount = s.icount) ∧
    (∀ bs : List Byte, readString s.mem (s.reg .a0) = .ok bs →
      ∃ (t : State) (o : EcallOutput), exec (.ecall 5) s = .next t ∧ t.events = s.events ++ [.ecallOutput o] ∧
      o.lines = [printStringText ++ bs] ∧ t.pc = u16 (s.pc.toNat + 2) ∧
      sameRegistersBut none s t ∧ sameMemory s t ∧
      t.programSize = s.programSize ∧ t.status = s.status ∧ t.icount = s.icount) ∧
    (∀ f : Fault, readString s.mem (s.reg .a0) = .error f → exec (.ecall 5) s = .fault f) ∧
    (∀ n : Nat, n ≠ 1 → n ≠ 3 → n ≠ 5 →
      ∃ (t : State) (o : EcallOutput), exec (.ecall n) s = .next t ∧ t.events = s.events ++ [.ecallOutput o] ∧
      o.lines = [ecallText ++ decimalBytes n] ∧ t.pc = u16 (s.pc.toNat + 2) ∧
      sameRegistersBut none s t ∧ sameMemory s t ∧
      t.programSize = s.programSize ∧ t.status = s.status ∧ t.icount = s.icount)

/-- R204: the string is the bytes from `a0` up to the first zero byte; with none before the end of memory the read raises
`MemoryBounds(65536, 1)` (the spec's decision D17, log 18). -/
def Obligations.PrintStringReadsUpToTheZeroByte : Prop :=
  ∀ (s : State) (a0 : Word),
    (∀ n : Nat, a0.toNat + n ≤ 65535 → s.byteAt (a0.toNat + n) = 0#8 → (∀ k < n, s.byteAt (a0.toNat + k) ≠ 0#8) →
      readString s.mem a0 = .ok ((List.range n).map fun k => s.byteAt (a0.toNat + k))) ∧
    ((∀ a : Nat, a0.toNat ≤ a → a ≤ 65535 → s.byteAt a ≠ 0#8) →
      readString s.mem a0 = .error (.memoryBounds 65536 1))

/-- The decimal text of R202 and R205: digits only, no leading zero, and they denote the number; a negative value has one leading `-`. That service
numbers are printed in decimal is the spec's decision D16 (log 17). -/
def Obligations.DecimalTextDenotesTheNumber : Prop :=
  (∀ n : Nat, denotes (decimalBytes n) = n ∧ (∀ d ∈ decimalBytes n, 48 ≤ d.toNat ∧ d.toNat ≤ 57) ∧
    (n ≠ 0 → (decimalBytes n).head? ≠ some 48#8) ∧ (n = 0 → decimalBytes n = [48#8])) ∧
  (∀ v : Int, 0 ≤ v → decimalIntBytes v = decimalBytes v.toNat) ∧
  (∀ v : Int, v < 0 → decimalIntBytes v = 45#8 :: decimalBytes (-v).toNat)
end

