-- ==== Sys2Proof/Laws/Memory.lean ====
section
/-! SUPPORT. Laws of memory: read after write, the canonical form, and what each access can answer. -/

namespace Sys2Proof.Machine

/-! ### Read after write -/

@[simp] theorem Memory.get_nil (a : Nat) : Memory.get [] a = 0#8 := rfl

theorem Memory.get_cons (d : Nat) (v : Byte) (m : Memory) (a : Nat) :
    Memory.get ((d, v) :: m) a = if a < d then 0#8 else if a = d then v else m.get a := rfl

theorem Memory.get_above (m : Memory) (a c : Nat) : (m.above a).get c = if c ≤ a then 0#8 else m.get c := by
  induction m with
  | nil => simp [Memory.above]
  | cons x m ih =>
    obtain ⟨d, v⟩ := x
    by_cases hd : d ≤ a
    · have : Memory.above ((d, v) :: m) a = Memory.above m a := by simp [Memory.above, hd]
      rw [this, ih, Memory.get_cons]
      split_ifs <;> first | rfl | omega
    · have : Memory.above ((d, v) :: m) a = (d, v) :: m := by simp [Memory.above, hd]
      rw [this, Memory.get_cons]
      split_ifs <;> first | rfl | omega

theorem Memory.get_cell_append (m : Memory) (a : Nat) (b : Byte) (c : Nat) :
    Memory.get (Memory.cell a b ++ m.above a) c = if c < a then 0#8 else if c = a then b else m.get c := by
  by_cases hb : b = 0#8
  · simp only [Memory.cell, hb, if_true, List.nil_append, Memory.get_above]
    split_ifs <;> first | rfl | omega
  · simp only [Memory.cell, hb, if_false, List.cons_append, List.nil_append, Memory.get_cons, Memory.get_above]
    split_ifs <;> first | rfl | omega

/-- The read of a byte after the write of a byte, at any address. -/
theorem Memory.get_set (m : Memory) (a : Nat) (b : Byte) (c : Nat) :
    (m.set a b).get c = if c = a then b else m.get c := by
  induction m with
  | nil =>
    have h := Memory.get_cell_append [] a b c
    simp only [Memory.above, List.dropWhile_nil, List.append_nil, Memory.get_nil] at h
    simp only [Memory.set, h, Memory.get_nil]
    split_ifs <;> first | rfl | omega
  | cons x m ih =>
    obtain ⟨d, v⟩ := x
    by_cases hd : d < a
    · simp only [Memory.set, hd, if_true, Memory.get_cons, ih]
      split_ifs <;> first | rfl | omega
    · simp only [Memory.set, hd, if_false, Memory.get_cell_append, Memory.get_cons]
      split_ifs <;> first | rfl | omega

@[simp] theorem Memory.get_set_same (m : Memory) (a : Nat) (b : Byte) : (m.set a b).get a = b := by
  simp [Memory.get_set]

theorem Memory.get_set_other (m : Memory) (b : Byte) {a c : Nat} (h : c ≠ a) : (m.set a b).get c = m.get c := by
  simp [Memory.get_set, h]

/-! ### The canonical form -/

theorem Memory.wfFrom_cons (lo d : Nat) (v : Byte) (m : Memory) :
    Memory.wfFrom lo ((d, v) :: m) = true ↔ lo ≤ d ∧ d < Config.memSize ∧ v ≠ 0#8 ∧ Memory.wfFrom (d + 1) m = true := by
  simp [Memory.wfFrom, and_assoc]

theorem Memory.wfFrom_mono {lo lo' : Nat} {m : Memory} (h : lo' ≤ lo) (hm : Memory.wfFrom lo m = true) :
    Memory.wfFrom lo' m = true := by
  cases m with
  | nil => rfl
  | cons x m =>
    obtain ⟨d, v⟩ := x
    rw [Memory.wfFrom_cons] at hm ⊢
    exact ⟨h.trans hm.1, hm.2⟩

theorem Memory.wfFrom_above {lo : Nat} {m : Memory} (a : Nat) (hm : Memory.wfFrom lo m = true) :
    Memory.wfFrom (a + 1) (m.above a) = true := by
  induction m generalizing lo with
  | nil => rfl
  | cons x m ih =>
    obtain ⟨d, v⟩ := x
    rw [Memory.wfFrom_cons] at hm
    by_cases hd : d ≤ a
    · have : Memory.above ((d, v) :: m) a = Memory.above m a := by simp [Memory.above, hd]
      rw [this]
      exact ih hm.2.2.2
    · have : Memory.above ((d, v) :: m) a = (d, v) :: m := by simp [Memory.above, hd]
      rw [this, Memory.wfFrom_cons]
      exact ⟨by omega, hm.2⟩

theorem Memory.wfFrom_cell_append {lo a : Nat} {b : Byte} {m : Memory} (hlo : lo ≤ a) (ha : a < Config.memSize)
    (hm : Memory.wfFrom (a + 1) m = true) : Memory.wfFrom lo (Memory.cell a b ++ m) = true := by
  by_cases hb : b = 0#8
  · simpa [Memory.cell, hb] using Memory.wfFrom_mono (by omega) hm
  · simp only [Memory.cell, hb, if_false, List.cons_append, List.nil_append, Memory.wfFrom_cons]
    exact ⟨hlo, ha, hb, hm⟩

theorem Memory.wfFrom_set {lo : Nat} {m : Memory} {a : Nat} (b : Byte) (hlo : lo ≤ a) (ha : a < Config.memSize)
    (hm : Memory.wfFrom lo m = true) : Memory.wfFrom lo (m.set a b) = true := by
  induction m generalizing lo with
  | nil => simpa [Memory.set] using Memory.wfFrom_cell_append (b := b) hlo ha (m := []) rfl
  | cons x m ih =>
    obtain ⟨d, v⟩ := x
    have h := hm
    rw [Memory.wfFrom_cons] at hm
    by_cases hd : d < a
    · simp only [Memory.set, hd, if_true, Memory.wfFrom_cons]
      exact ⟨hm.1, hm.2.1, hm.2.2.1, ih hd hm.2.2.2⟩
    · simp only [Memory.set, hd, if_false]
      exact Memory.wfFrom_cell_append hlo ha (Memory.wfFrom_above a h)

/-- A write of a byte inside memory keeps the canonical form. -/
theorem Memory.wf_set {m : Memory} {a : Nat} (b : Byte) (ha : a < Config.memSize) (hm : m.wf = true) :
    (m.set a b).wf = true :=
  Memory.wfFrom_set b (Nat.zero_le a) ha hm

theorem wfFrom_imageMemory (image : List Byte) (a : Nat) (h : a + image.length ≤ Config.memSize) :
    Memory.wfFrom a (imageMemory a image) = true := by
  induction image generalizing a with
  | nil => rfl
  | cons b bs ih =>
    simp only [List.length_cons] at h
    have hbs := ih (a + 1) (by omega)
    by_cases hb : b = 0#8
    · simpa [imageMemory, hb] using Memory.wfFrom_mono (Nat.le_succ a) hbs
    · simp only [imageMemory, hb, if_false, Memory.wfFrom_cons]
      exact ⟨le_refl a, by omega, hb, hbs⟩

/-- Loading an image that fits gives memory in canonical form. -/
theorem wf_load (image : List Byte) (h : image.length ≤ Config.memSize) : (State.load image).mem.wf = true :=
  wfFrom_imageMemory image 0 (by simpa using h)

/-- Reset memory lists nothing and has the canonical form. -/
theorem wf_reset : State.reset.mem.wf = true := rfl

/-- The byte at `a + k` of an image placed at `a`. -/
theorem get_imageMemory (image : List Byte) (a c : Nat) :
    (imageMemory a image).get c = if c < a then 0#8 else image.getD (c - a) 0#8 := by
  induction image generalizing a with
  | nil => simp [imageMemory]
  | cons b bs ih =>
    have key : Memory.get (imageMemory a (b :: bs)) c = if c < a then 0#8 else if c = a then b else
        (imageMemory (a + 1) bs).get c := by
      by_cases hb : b = 0#8
      · simp only [imageMemory, hb, if_true, ih]
        split_ifs <;> first | rfl | omega
      · simp only [imageMemory, hb, if_false, Memory.get_cons]
    rw [key, ih]
    by_cases h1 : c < a
    · simp [h1]
    · by_cases h2 : c = a
      · simp [h2]
      · have h3 : ¬ c < a + 1 := by omega
        obtain ⟨k, rfl⟩ : ∃ k, c = a + 1 + k := ⟨c - (a + 1), by omega⟩
        have h4 : a + 1 + k - a = k + 1 := by omega
        simp only [h1, h2, h3, h4, if_false, List.getD_cons_succ]
        rw [show a + 1 + k - (a + 1) = k by omega]

/-! ### What each access can answer -/

theorem inBounds_iff (a : Int) (n : Nat) : inBounds a n = true ↔ 0 ≤ a ∧ a + n ≤ 65536 := by
  rw [inBounds, Bool.and_eq_true, decide_eq_true_iff, decide_eq_true_iff]
  rfl

theorem memRead8_eq (m : Memory) (a : Int) :
    memRead8 m a = if inBounds a 1 then .ok (m.get a.toNat) else .error (.memoryBounds a 1) := rfl

theorem memRead16_eq (m : Memory) (a : Int) :
    memRead16 m a =
      if inBounds a 2 then .ok (wordOfBytes (m.get a.toNat) (m.get (a.toNat + 1))) else .error (.memoryBounds a 2) := rfl

/-- A byte write that answers memory was in bounds and wrote exactly one byte. -/
theorem memWrite8_ok {m m' : Memory} {a : Int} {v : Word} (h : memWrite8 m a v = .ok m') :
    inBounds a 1 = true ∧ m' = m.set a.toNat (lowByte v) := by
  unfold memWrite8 at h
  split at h
  · exact ⟨‹_›, (Except.ok.inj h).symm⟩
  · exact nomatch h

/-- A word write that answers memory was in bounds and wrote exactly two bytes. -/
theorem memWrite16_ok {m m' : Memory} {a : Int} {v : Word} (h : memWrite16 m a v = .ok m') :
    inBounds a 2 = true ∧ m' = (m.set a.toNat (lowByte v)).set (a.toNat + 1) (highByte v) := by
  unfold memWrite16 at h
  split at h
  · exact ⟨‹_›, (Except.ok.inj h).symm⟩
  · exact nomatch h

theorem memRead8_error {m : Memory} {a : Int} {f : Fault} (h : memRead8 m a = .error f) :
    inBounds a 1 = false ∧ f = .memoryBounds a 1 := by
  unfold memRead8 at h
  split at h
  · exact nomatch h
  · exact ⟨Bool.eq_false_iff.mpr ‹_›, (Except.error.inj h).symm⟩

theorem memRead16_error {m : Memory} {a : Int} {f : Fault} (h : memRead16 m a = .error f) :
    inBounds a 2 = false ∧ f = .memoryBounds a 2 := by
  unfold memRead16 at h
  split at h
  · exact nomatch h
  · exact ⟨Bool.eq_false_iff.mpr ‹_›, (Except.error.inj h).symm⟩

theorem memWrite8_error {m : Memory} {a : Int} {v : Word} {f : Fault} (h : memWrite8 m a v = .error f) :
    inBounds a 1 = false ∧ f = .memoryBounds a 1 := by
  unfold memWrite8 at h
  split at h
  · exact nomatch h
  · exact ⟨Bool.eq_false_iff.mpr ‹_›, (Except.error.inj h).symm⟩

theorem memWrite16_error {m : Memory} {a : Int} {v : Word} {f : Fault} (h : memWrite16 m a v = .error f) :
    inBounds a 2 = false ∧ f = .memoryBounds a 2 := by
  unfold memWrite16 at h
  split at h
  · exact nomatch h
  · exact ⟨Bool.eq_false_iff.mpr ‹_›, (Except.error.inj h).symm⟩

/-- A byte write keeps the canonical form. -/
theorem wf_memWrite8 {m m' : Memory} {a : Int} {v : Word} (h : memWrite8 m a v = .ok m') (hm : m.wf = true) :
    m'.wf = true := by
  obtain ⟨hb, rfl⟩ := memWrite8_ok h
  rw [inBounds_iff] at hb
  exact Memory.wf_set _ (by simp only [Config.memSize]; omega) hm

/-- A word write keeps the canonical form. -/
theorem wf_memWrite16 {m m' : Memory} {a : Int} {v : Word} (h : memWrite16 m a v = .ok m') (hm : m.wf = true) :
    m'.wf = true := by
  obtain ⟨hb, rfl⟩ := memWrite16_ok h
  rw [inBounds_iff] at hb
  exact Memory.wf_set _ (by simp only [Config.memSize]; omega) (Memory.wf_set _ (by simp only [Config.memSize]; omega) hm)

end Sys2Proof.Machine
end

