-- ==== Sys2Proof/Laws/State.lean ====
section
/-! SUPPORT. One lemma per field per update of State, and the register laws. -/

namespace Sys2Proof.Machine

@[simp] theorem State.setReg_regs (s : State) (r : Reg) (v : Word) : (s.setReg r v).regs = s.regs.set r v := rfl
@[simp] theorem State.setReg_pc (s : State) (r : Reg) (v : Word) : (s.setReg r v).pc = s.pc := rfl
@[simp] theorem State.setReg_mem (s : State) (r : Reg) (v : Word) : (s.setReg r v).mem = s.mem := rfl
@[simp] theorem State.setReg_programSize (s : State) (r : Reg) (v : Word) : (s.setReg r v).programSize = s.programSize := rfl
@[simp] theorem State.setReg_status (s : State) (r : Reg) (v : Word) : (s.setReg r v).status = s.status := rfl
@[simp] theorem State.setReg_icount (s : State) (r : Reg) (v : Word) : (s.setReg r v).icount = s.icount := rfl
@[simp] theorem State.setReg_events (s : State) (r : Reg) (v : Word) : (s.setReg r v).events = s.events := rfl

@[simp] theorem State.setPc_regs (s : State) (t : Word) : (s.setPc t).regs = s.regs := rfl
@[simp] theorem State.setPc_pc (s : State) (t : Word) : (s.setPc t).pc = t := rfl
@[simp] theorem State.setPc_mem (s : State) (t : Word) : (s.setPc t).mem = s.mem := rfl
@[simp] theorem State.setPc_programSize (s : State) (t : Word) : (s.setPc t).programSize = s.programSize := rfl
@[simp] theorem State.setPc_status (s : State) (t : Word) : (s.setPc t).status = s.status := rfl
@[simp] theorem State.setPc_icount (s : State) (t : Word) : (s.setPc t).icount = s.icount := rfl
@[simp] theorem State.setPc_events (s : State) (t : Word) : (s.setPc t).events = s.events := rfl

@[simp] theorem State.advance_regs (s : State) : s.advance.regs = s.regs := rfl
@[simp] theorem State.advance_pc (s : State) : s.advance.pc = s.nextPc := rfl
@[simp] theorem State.advance_mem (s : State) : s.advance.mem = s.mem := rfl
@[simp] theorem State.advance_programSize (s : State) : s.advance.programSize = s.programSize := rfl
@[simp] theorem State.advance_status (s : State) : s.advance.status = s.status := rfl
@[simp] theorem State.advance_icount (s : State) : s.advance.icount = s.icount := rfl
@[simp] theorem State.advance_events (s : State) : s.advance.events = s.events := rfl

@[simp] theorem State.setMem_regs (s : State) (m : Memory) : (s.setMem m).regs = s.regs := rfl
@[simp] theorem State.setMem_pc (s : State) (m : Memory) : (s.setMem m).pc = s.pc := rfl
@[simp] theorem State.setMem_mem (s : State) (m : Memory) : (s.setMem m).mem = m := rfl
@[simp] theorem State.setMem_programSize (s : State) (m : Memory) : (s.setMem m).programSize = s.programSize := rfl
@[simp] theorem State.setMem_status (s : State) (m : Memory) : (s.setMem m).status = s.status := rfl
@[simp] theorem State.setMem_icount (s : State) (m : Memory) : (s.setMem m).icount = s.icount := rfl
@[simp] theorem State.setMem_events (s : State) (m : Memory) : (s.setMem m).events = s.events := rfl

@[simp] theorem State.emit_regs (s : State) (e : Event) : (s.emit e).regs = s.regs := rfl
@[simp] theorem State.emit_pc (s : State) (e : Event) : (s.emit e).pc = s.pc := rfl
@[simp] theorem State.emit_mem (s : State) (e : Event) : (s.emit e).mem = s.mem := rfl
@[simp] theorem State.emit_programSize (s : State) (e : Event) : (s.emit e).programSize = s.programSize := rfl
@[simp] theorem State.emit_status (s : State) (e : Event) : (s.emit e).status = s.status := rfl
@[simp] theorem State.emit_icount (s : State) (e : Event) : (s.emit e).icount = s.icount := rfl
@[simp] theorem State.emit_events (s : State) (e : Event) : (s.emit e).events = s.events ++ [e] := rfl

@[simp] theorem State.stop_regs (s : State) (r : StopReason) : (s.stop r).regs = s.regs := rfl
@[simp] theorem State.stop_pc (s : State) (r : StopReason) : (s.stop r).pc = s.pc := rfl
@[simp] theorem State.stop_mem (s : State) (r : StopReason) : (s.stop r).mem = s.mem := rfl
@[simp] theorem State.stop_programSize (s : State) (r : StopReason) : (s.stop r).programSize = s.programSize := rfl
@[simp] theorem State.stop_status (s : State) (r : StopReason) : (s.stop r).status = .stopped r := rfl
@[simp] theorem State.stop_icount (s : State) (r : StopReason) : (s.stop r).icount = s.icount := rfl
@[simp] theorem State.stop_events (s : State) (r : StopReason) : (s.stop r).events = s.events := rfl

@[simp] theorem State.takeFault_regs (s : State) (f : Fault) : (s.takeFault f).regs = s.regs := rfl
@[simp] theorem State.takeFault_pc (s : State) (f : Fault) : (s.takeFault f).pc = s.pc := rfl
@[simp] theorem State.takeFault_mem (s : State) (f : Fault) : (s.takeFault f).mem = s.mem := rfl
@[simp] theorem State.takeFault_programSize (s : State) (f : Fault) : (s.takeFault f).programSize = s.programSize := rfl
@[simp] theorem State.takeFault_status (s : State) (f : Fault) : (s.takeFault f).status = .stopped (.fault f) := rfl
@[simp] theorem State.takeFault_icount (s : State) (f : Fault) : (s.takeFault f).icount = s.icount := rfl
@[simp] theorem State.takeFault_events (s : State) (f : Fault) : (s.takeFault f).events = s.events := rfl

@[simp] theorem State.haltRun_regs (s : State) : s.haltRun.regs = s.regs := rfl
@[simp] theorem State.haltRun_pc (s : State) : s.haltRun.pc = s.pc := rfl
@[simp] theorem State.haltRun_mem (s : State) : s.haltRun.mem = s.mem := rfl
@[simp] theorem State.haltRun_programSize (s : State) : s.haltRun.programSize = s.programSize := rfl
@[simp] theorem State.haltRun_status (s : State) : s.haltRun.status = .stopped .halt := rfl
@[simp] theorem State.haltRun_icount (s : State) : s.haltRun.icount = s.icount := rfl
@[simp] theorem State.haltRun_events (s : State) : s.haltRun.events = s.events := rfl

@[simp] theorem State.coreReset_regs (s : State) : s.coreReset.regs = Regs.reset := rfl
@[simp] theorem State.coreReset_pc (s : State) : s.coreReset.pc = 0#16 := rfl
@[simp] theorem State.coreReset_mem (s : State) : s.coreReset.mem = s.mem := rfl
@[simp] theorem State.coreReset_programSize (s : State) : s.coreReset.programSize = s.programSize := rfl
@[simp] theorem State.coreReset_status (s : State) : s.coreReset.status = .running := rfl
@[simp] theorem State.coreReset_icount (s : State) : s.coreReset.icount = 0 := rfl
@[simp] theorem State.coreReset_events (s : State) : s.coreReset.events = [] := rfl

@[simp] theorem beginInstruction_regs (w : Word) (s : State) : (beginInstruction w s).regs = s.regs := rfl
@[simp] theorem beginInstruction_pc (w : Word) (s : State) : (beginInstruction w s).pc = s.pc := rfl
@[simp] theorem beginInstruction_mem (w : Word) (s : State) : (beginInstruction w s).mem = s.mem := rfl
@[simp] theorem beginInstruction_programSize (w : Word) (s : State) : (beginInstruction w s).programSize = s.programSize := rfl
@[simp] theorem beginInstruction_status (w : Word) (s : State) : (beginInstruction w s).status = s.status := rfl
@[simp] theorem beginInstruction_icount (w : Word) (s : State) : (beginInstruction w s).icount = s.icount + 1 := rfl
@[simp] theorem beginInstruction_events (w : Word) (s : State) : (beginInstruction w s).events = s.events ++ [.trace s.pc w] := rfl

@[simp] theorem stepOverUnknown_regs (w : Word) (s : State) : (stepOverUnknown w s).regs = s.regs := rfl
@[simp] theorem stepOverUnknown_pc (w : Word) (s : State) : (stepOverUnknown w s).pc = s.nextPc := rfl
@[simp] theorem stepOverUnknown_mem (w : Word) (s : State) : (stepOverUnknown w s).mem = s.mem := rfl
@[simp] theorem stepOverUnknown_programSize (w : Word) (s : State) : (stepOverUnknown w s).programSize = s.programSize := rfl
@[simp] theorem stepOverUnknown_status (w : Word) (s : State) : (stepOverUnknown w s).status = s.status := rfl
@[simp] theorem stepOverUnknown_icount (w : Word) (s : State) : (stepOverUnknown w s).icount = s.icount := rfl
@[simp] theorem stepOverUnknown_events (w : Word) (s : State) : (stepOverUnknown w s).events = s.events ++ [.diagnostic s.pc w] := rfl

@[simp] theorem stopOnBudget_regs (s : State) : (stopOnBudget s).regs = s.regs := rfl
@[simp] theorem stopOnBudget_pc (s : State) : (stopOnBudget s).pc = s.pc := rfl
@[simp] theorem stopOnBudget_mem (s : State) : (stopOnBudget s).mem = s.mem := rfl
@[simp] theorem stopOnBudget_programSize (s : State) : (stopOnBudget s).programSize = s.programSize := rfl
@[simp] theorem stopOnBudget_status (s : State) : (stopOnBudget s).status = .stopped .cycleBudgetExceeded := rfl
@[simp] theorem stopOnBudget_icount (s : State) : (stopOnBudget s).icount = s.icount := rfl
@[simp] theorem stopOnBudget_events (s : State) : (stopOnBudget s).events = s.events ++ [.budgetNotice s.pc] := rfl

/-! ### Registers -/

@[simp] theorem Regs.get_set_same (x : Regs) (r : Reg) (v : Word) : (x.set r v).get r = v := by
  cases r <;> rfl

theorem Regs.get_set_other (x : Regs) (v : Word) {r q : Reg} (h : q ≠ r) : (x.set r v).get q = x.get q := by
  cases r <;> cases q <;> first | rfl | exact absurd rfl h

@[simp] theorem State.reg_setReg_same (s : State) (r : Reg) (v : Word) : (s.setReg r v).reg r = v :=
  Regs.get_set_same s.regs r v

theorem State.reg_setReg_other (s : State) (v : Word) {r q : Reg} (h : q ≠ r) : (s.setReg r v).reg q = s.reg q :=
  Regs.get_set_other s.regs v h

/-! ### Register and byte reads of the other updates -/

@[simp] theorem State.byteAt_setReg (s : State) (r : Reg) (v : Word) (a : Nat) : (s.setReg r v).byteAt a = s.byteAt a := rfl
@[simp] theorem State.reg_setPc (s : State) (t : Word) (q : Reg) : (s.setPc t).reg q = s.reg q := rfl
@[simp] theorem State.byteAt_setPc (s : State) (t : Word) (a : Nat) : (s.setPc t).byteAt a = s.byteAt a := rfl
@[simp] theorem State.reg_advance (s : State) (q : Reg) : s.advance.reg q = s.reg q := rfl
@[simp] theorem State.byteAt_advance (s : State) (a : Nat) : s.advance.byteAt a = s.byteAt a := rfl
@[simp] theorem State.reg_setMem (s : State) (m : Memory) (q : Reg) : (s.setMem m).reg q = s.reg q := rfl
@[simp] theorem State.reg_emit (s : State) (e : Event) (q : Reg) : (s.emit e).reg q = s.reg q := rfl
@[simp] theorem State.byteAt_emit (s : State) (e : Event) (a : Nat) : (s.emit e).byteAt a = s.byteAt a := rfl
@[simp] theorem State.reg_stop (s : State) (r : StopReason) (q : Reg) : (s.stop r).reg q = s.reg q := rfl
@[simp] theorem State.byteAt_stop (s : State) (r : StopReason) (a : Nat) : (s.stop r).byteAt a = s.byteAt a := rfl
@[simp] theorem State.reg_takeFault (s : State) (f : Fault) (q : Reg) : (s.takeFault f).reg q = s.reg q := rfl
@[simp] theorem State.byteAt_takeFault (s : State) (f : Fault) (a : Nat) : (s.takeFault f).byteAt a = s.byteAt a := rfl
@[simp] theorem State.reg_haltRun (s : State) (q : Reg) : s.haltRun.reg q = s.reg q := rfl
@[simp] theorem State.byteAt_haltRun (s : State) (a : Nat) : s.haltRun.byteAt a = s.byteAt a := rfl
@[simp] theorem State.byteAt_coreReset (s : State) (a : Nat) : s.coreReset.byteAt a = s.byteAt a := rfl
@[simp] theorem reg_beginInstruction (w : Word) (s : State) (q : Reg) : (beginInstruction w s).reg q = s.reg q := rfl
@[simp] theorem byteAt_beginInstruction (w : Word) (s : State) (a : Nat) : (beginInstruction w s).byteAt a = s.byteAt a := rfl
@[simp] theorem reg_stepOverUnknown (w : Word) (s : State) (q : Reg) : (stepOverUnknown w s).reg q = s.reg q := rfl
@[simp] theorem byteAt_stepOverUnknown (w : Word) (s : State) (a : Nat) : (stepOverUnknown w s).byteAt a = s.byteAt a := rfl
@[simp] theorem reg_stopOnBudget (s : State) (q : Reg) : (stopOnBudget s).reg q = s.reg q := rfl
@[simp] theorem byteAt_stopOnBudget (s : State) (a : Nat) : (stopOnBudget s).byteAt a = s.byteAt a := rfl

theorem State.nextPc_eq (s : State) : s.nextPc = s.pc + 2#16 := rfl

theorem State.reg_eq (s : State) (r : Reg) : s.reg r = s.regs.get r := rfl

theorem State.byteAt_eq (s : State) (a : Nat) : s.byteAt a = s.mem.get a := rfl

end Sys2Proof.Machine
end

