-- ==== Sys2Proof/Laws/Ops.lean ====
section
/-! SUPPORT. What each shared operation can answer, said once: the shapes of the instructions, the step's wrapper, and the step
itself. -/

namespace Sys2Proof.Machine

/-! ### Arithmetic of words -/

theorem u16_toNat (n : Int) : ((u16 n).toNat : Int) = n % 65536 := by
  simp only [u16, BitVec.toNat_ofInt]
  omega

theorem u16_natCast (n : Nat) : u16 n = BitVec.ofNat 16 n := by
  apply BitVec.eq_of_toNat_eq
  have h := u16_toNat n
  simp only [BitVec.toNat_ofNat]
  omega

theorem nextPc_eq_u16 (s : State) : s.nextPc = u16 (s.pc.toNat + 2) := by
  apply BitVec.eq_of_toNat_eq
  have h := u16_toNat (s.pc.toNat + 2)
  simp only [State.nextPc, BitVec.toNat_add, BitVec.toNat_ofNat]
  omega

/-! ### The shapes of the instructions -/

/-- A load answers next with the value read, or faults with the reason of the read. -/
theorem loadResult_cases (rd : Reg) (read : Except Fault Word) (s : State) :
    (∃ v, read = .ok v ∧ loadResult rd read s = .next (s.setReg rd v).advance) ∨
    (∃ f, read = .error f ∧ loadResult rd read s = .fault f) := by
  cases read with
  | ok v => exact .inl ⟨v, rfl, rfl⟩
  | error f => exact .inr ⟨f, rfl, rfl⟩

/-- A store answers next with the memory written, or faults with the reason of the write. -/
theorem storeResult_cases (write : Except Fault Memory) (s : State) :
    (∃ m, write = .ok m ∧ storeResult write s = .next (s.setMem m).advance) ∨
    (∃ f, write = .error f ∧ storeResult write s = .fault f) := by
  cases write with
  | ok m => exact .inl ⟨m, rfl, rfl⟩
  | error f => exact .inr ⟨f, rfl, rfl⟩

/-- A branch always answers next, at the target or at the next instruction. -/
theorem branchTo_eq (taken : Bool) (target : Word) (s : State) :
    branchTo taken target s = .next (s.setPc (if taken then target else s.nextPc)) := by
  cases taken <;> rfl

/-- `Except.map` answers ok exactly when its argument does. -/
theorem map_ok_iff {α β : Type} (g : α → β) (e : Except Fault α) (y : β) :
    e.map g = .ok y ↔ ∃ x, e = .ok x ∧ g x = y := by
  cases e <;> simp [Except.map]

theorem map_error_iff {α β : Type} (g : α → β) (e : Except Fault α) (f : Fault) :
    e.map g = .error f ↔ e = .error f := by
  cases e <;> simp [Except.map]

theorem readStringFrom_zero (m : Memory) (a : Nat) : readStringFrom m 0 a = .error (.memoryBounds a 1) := rfl

/-- One round of the string read inside memory. -/
theorem readStringFrom_succ {m : Memory} {left a : Nat} (ha : a < 65536) :
    readStringFrom m (left + 1) a =
      if m.get a = 0#8 then .ok [] else (readStringFrom m left (a + 1)).map (m.get a :: ·) := by
  have hin : inBounds a 1 = true := (inBounds_iff a 1).mpr (by omega)
  rw [readStringFrom, memRead8_eq, if_pos hin]
  rfl

/-- Reading a string can only fail past the end of memory. -/
theorem readStringFrom_error {m : Memory} {left a : Nat} {f : Fault} (hla : a + left = 65536)
    (h : readStringFrom m left a = .error f) : f = .memoryBounds 65536 1 := by
  induction left generalizing a with
  | zero =>
    have ha : (a : Int) = 65536 := by omega
    cases (readStringFrom_zero m a).symm.trans h
    simp only [ha]
  | succ k ih =>
    rw [readStringFrom_succ (by omega)] at h
    split at h
    · exact nomatch h
    · exact ih (by omega) ((map_error_iff _ _ _).mp h)

theorem readString_error {m : Memory} {a0 : Word} {f : Fault} (h : readString m a0 = .error f) :
    f = .memoryBounds 65536 1 := by
  have ha : a0.toNat < 65536 := a0.isLt
  have hm : Config.memSize = 65536 := rfl
  exact readStringFrom_error (by rw [hm]; omega) h

/-! ### The step -/

/-- What a step can do: nothing when stopped, the two stops before a fetch, a fault of the fetch, or the word at `pc`. -/
theorem step_cases (s : State) :
    (∃ r, s.status = .stopped r ∧ step s = .next s) ∨
    (s.status = .running ∧ s.programSize ≤ s.pc.toNat ∧ step s = .next (s.stop .endOfProgram)) ∨
    (s.status = .running ∧ s.pc.toNat < s.programSize ∧ Config.cycleBudget ≤ s.icount ∧ step s = .next (stopOnBudget s)) ∨
    (∃ f, s.status = .running ∧ s.pc.toNat < s.programSize ∧ s.icount < Config.cycleBudget ∧ fetch s = .error f ∧
      step s = .next (s.takeFault f)) ∨
    (∃ w, s.status = .running ∧ s.pc.toNat < s.programSize ∧ s.icount < Config.cycleBudget ∧ fetch s = .ok w ∧
      step s = settle (beginInstruction w s) (executeWord w (beginInstruction w s))) := by
  unfold step engineStep
  cases hst : s.status with
  | stopped r => exact .inl ⟨r, rfl, rfl⟩
  | running =>
    right
    by_cases h1 : s.programSize ≤ s.pc.toNat
    · exact .inl ⟨rfl, h1, by simp [atEnd, h1]⟩
    · right
      have h1' := Nat.lt_of_not_le h1
      by_cases h2 : Config.cycleBudget ≤ s.icount
      · exact .inl ⟨rfl, h1', h2, by simp [atEnd, h1, budgetSpent, h2]⟩
      · right
        have h2' := Nat.lt_of_not_le h2
        cases hf : fetch s with
        | error f => exact .inl ⟨f, rfl, h1', h2', rfl, by simp [atEnd, h1, budgetSpent, h2]⟩
        | ok w => exact .inr ⟨w, rfl, h1', h2', rfl, by simp [atEnd, h1, budgetSpent, h2]⟩

end Sys2Proof.Machine
end

