-- ==== Sys2Proof/Laws/Alu.lean ====
section
/-! SUPPORT. The ALU's operations as the arithmetic of the rules (40_engine.md R91 to R93) and the operand forms as numbers. -/

namespace Sys2Proof.Machine

theorem aluAdd_eq_u16 (a b : Word) : aluAdd a b = u16 (a.toNat + b.toNat) := by
  apply BitVec.eq_of_toNat_eq
  have h := u16_toNat (a.toNat + b.toNat)
  simp only [aluAdd, BitVec.toNat_add]
  omega

theorem aluSub_eq_u16 (a b : Word) : aluSub a b = u16 (a.toNat - b.toNat) := by
  apply BitVec.eq_of_toNat_eq
  have h := u16_toNat (a.toNat - b.toNat)
  have hb := b.isLt
  simp only [aluSub, BitVec.toNat_sub]
  omega

theorem aluSll_eq_u16 (a : Word) (n : Nat) : aluSll a n = u16 (a.toNat * 2 ^ n) := by
  apply BitVec.eq_of_toNat_eq
  have h := u16_toNat (a.toNat * 2 ^ n)
  have e : (a.toNat : Int) * 2 ^ n = ((a.toNat * 2 ^ n : Nat) : Int) := by push_cast; rfl
  simp only [aluSll, BitVec.toNat_shiftLeft, Nat.shiftLeft_eq]
  omega

theorem aluSrl_eq_u16 (a : Word) (n : Nat) : aluSrl a n = u16 (a.toNat / 2 ^ n) := by
  have e : (a.toNat : Int) / 2 ^ n = ((a.toNat / 2 ^ n : Nat) : Int) := by push_cast; rfl
  rw [e]
  apply BitVec.eq_of_toNat_eq
  have h := u16_toNat ((a.toNat / 2 ^ n : Nat) : Int)
  simp only [aluSrl, BitVec.toNat_ushiftRight, Nat.shiftRight_eq_div_pow]
  have hle := Nat.div_le_self a.toNat (2 ^ n)
  have ha := a.isLt
  generalize a.toNat / 2 ^ n = k at *
  omega

theorem aluSra_eq_u16 (a : Word) (n : Nat) : aluSra a n = u16 (Int.fdiv (signed a) (2 ^ n)) := by
  rw [aluSra, BitVec.sshiftRight_eq, Int.fdiv_eq_ediv_of_nonneg _ (by positivity)]
  simp [u16, signed, Int.shiftRight_eq_div_pow]

theorem shiftAmount_eq (b : Word) : shiftAmount b = b.toNat % 16 := by
  have h : b.toNat &&& 15 = b.toNat % 16 := Nat.and_two_pow_sub_one_eq_mod b.toNat 4
  simp [shiftAmount, h]

/-- The signed reading of a wrapped integer that fits. -/
theorem signed_u16 {n : Int} (hlo : -32768 ≤ n) (hhi : n ≤ 32767) : signed (u16 n) = n := by
  simp only [signed, u16, BitVec.toInt_ofInt]
  rw [Int.bmod_eq_of_le] <;> omega

theorem zeroExtendByte_toNat (b : Byte) : (zeroExtendByte b).toNat = b.toNat := by
  have h := b.isLt
  simp only [zeroExtendByte, BitVec.zeroExtend_eq_setWidth, BitVec.toNat_setWidth]
  omega

theorem signExtendByte_toInt (b : Byte) : signed (signExtendByte b) = b.toInt := by
  simp only [signed, signExtendByte]
  exact BitVec.toInt_signExtend_of_le (by decide)

end Sys2Proof.Machine
end

