-- ==== Sys2Proof/Laws/Decode.lean ====
section
/-! SUPPORT. Laws of the fields: the registers' bits, the fields of the words the encoder builds, and how a masked compare fixes
the fields it covers. -/

namespace Sys2Proof

@[simp] theorem Reg.ofBits_toBits (r : Reg) : Reg.ofBits r.toBits = r := by cases r <;> rfl

@[simp] theorem Reg.toBits_ofBits (b : BitVec 3) : (Reg.ofBits b).toBits = b := by revert b; decide

/-- A field wholly inside the mask of a compare is the field of the pattern. -/
theorem field_of_mask {w mask pat : Word} (start len : Nat) (h : w &&& mask = pat)
    (hm : mask.extractLsb' start len = BitVec.allOnes len) : w.extractLsb' start len = pat.extractLsb' start len := by
  rw [← h, BitVec.extractLsb'_and, hm, BitVec.and_allOnes]

/-- A masked compare holds when every bit of the mask is right. -/
theorem mask_of_bits {w mask pat : Word} (h : ∀ i : Fin 16, (w.getLsbD i && mask.getLsbD i) = pat.getLsbD i) :
    w &&& mask = pat := by
  apply BitVec.eq_of_getLsbD_eq
  intro i hi
  rw [BitVec.getLsbD_and]
  exact h ⟨i, hi⟩

/-- The two bytes of a word, joined, are the word. -/
@[simp] theorem wordOfBytes_low_high (w : Word) : wordOfBytes (lowByte w) (highByte w) = w := by
  apply BitVec.eq_of_getLsbD_eq
  intro i hi
  simp only [wordOfBytes, lowByte, highByte, BitVec.getLsbD_append, BitVec.getLsbD_extractLsb']
  by_cases h : i < 8
  · simp [h]
  · simp [h, show i - 8 < 8 by omega, show 8 + (i - 8) = i by omega]

theorem wordOfBytes_toNat (lo hi : Byte) : (wordOfBytes lo hi).toNat = lo.toNat + 256 * hi.toNat := by
  have h : (wordOfBytes lo hi).toNat = hi.toNat <<< 8 ||| lo.toNat := BitVec.toNat_append hi lo
  rw [h, Nat.shiftLeft_eq, Nat.mul_comm, ← Nat.two_pow_add_eq_or_of_lt lo.isLt]
  omega

theorem lowByte_toNat (w : Word) : (lowByte w).toNat = w.toNat % 256 := by
  simp [lowByte, BitVec.extractLsb'_toNat]

theorem highByte_toNat (w : Word) : (highByte w).toNat = w.toNat / 256 := by
  have := w.isLt
  simp only [highByte, BitVec.extractLsb'_toNat, Nat.shiftRight_eq_div_pow]
  omega

/-- Decoding the bytes of a word is decoding the word. -/
theorem decode_bytes (w : Word) : decode [lowByte w, highByte w] = decodeWord w := by
  simp [decode]

/-- What the decoder can answer for a word: an instruction, or that very word as unknown. -/
theorem decodeWord_cases (w : Word) :
    (∃ i, decodeFields w = some i ∧ decodeWord w = .ok i) ∨
    (decodeFields w = none ∧ decodeWord w = .error (.unknownEncoding w)) := by
  unfold decodeWord
  cases h : decodeFields w with
  | some i => exact .inl ⟨i, rfl, rfl⟩
  | none => exact .inr ⟨rfl, rfl⟩

/-! ### The words the encoder builds, field by field -/

theorem and_append {n m : Nat} (x a : BitVec n) (y b : BitVec m) : (x ++ y) &&& (a ++ b) = (x &&& a) ++ (y &&& b) := by
  apply BitVec.eq_of_getLsbD_eq
  intro i hi
  simp only [BitVec.getLsbD_and, BitVec.getLsbD_append]
  split <;> simp

/-- A masked compare field by field, for words of three fields. -/
theorem and_append3 {n1 n2 n3 : Nat} (x1 y1 : BitVec n1) (x2 y2 : BitVec n2) (x3 y3 : BitVec n3) :
    (x1 ++ x2 ++ x3) &&& (y1 ++ y2 ++ y3) = (x1 &&& y1) ++ (x2 &&& y2) ++ (x3 &&& y3) := by
  simp only [and_append]

/-- A masked compare field by field, for words of four fields. -/
theorem and_append4 {n1 n2 n3 n4 : Nat} (x1 y1 : BitVec n1) (x2 y2 : BitVec n2) (x3 y3 : BitVec n3) (x4 y4 : BitVec n4) :
    (x1 ++ x2 ++ x3 ++ x4) &&& (y1 ++ y2 ++ y3 ++ y4) = (x1 &&& y1) ++ (x2 &&& y2) ++ (x3 &&& y3) ++ (x4 &&& y4) := by
  simp only [and_append]

/-- A masked compare field by field, for words of five fields. -/
theorem and_append5 {n1 n2 n3 n4 n5 : Nat} (x1 y1 : BitVec n1) (x2 y2 : BitVec n2) (x3 y3 : BitVec n3) (x4 y4 : BitVec n4)
    (x5 y5 : BitVec n5) : (x1 ++ x2 ++ x3 ++ x4 ++ x5) &&& (y1 ++ y2 ++ y3 ++ y4 ++ y5) =
      (x1 &&& y1) ++ (x2 &&& y2) ++ (x3 &&& y3) ++ (x4 &&& y4) ++ (x5 &&& y5) := by
  simp only [and_append]

theorem wordR_and (f4 : BitVec 4) (rs2 rd : Reg) (f3 : BitVec 3) :
    wordR f4 rs2 rd f3 &&& 0xF03F#16 = f4 ++ 0#3 ++ 0#3 ++ f3 ++ 0b000#3 := by
  have h := and_append5 f4 (BitVec.allOnes 4) rs2.toBits 0#3 rd.toBits 0#3 f3 (BitVec.allOnes 3) 0b000#3 (BitVec.allOnes 3)
  simp only [BitVec.and_allOnes, BitVec.and_zero] at h
  exact h

theorem wordI_and (n : Int) (rd : Reg) (f3 : BitVec 3) :
    wordI n rd f3 &&& 0x003F#16 = 0#7 ++ 0#3 ++ f3 ++ 0b001#3 := by
  have h := and_append4 (BitVec.ofInt 7 n) 0#7 rd.toBits 0#3 f3 (BitVec.allOnes 3) 0b001#3 (BitVec.allOnes 3)
  simp only [BitVec.and_allOnes, BitVec.and_zero] at h
  exact h

theorem wordShift_and (sel : BitVec 3) (n : Nat) (rd : Reg) :
    wordShift sel n rd &&& 0xE03F#16 = sel ++ 0#4 ++ 0#3 ++ 0b011#3 ++ 0b001#3 := by
  have h := and_append5 sel (BitVec.allOnes 3) (BitVec.ofNat 4 n) 0#4 rd.toBits 0#3 0b011#3 (BitVec.allOnes 3) 0b001#3
    (BitVec.allOnes 3)
  simp only [BitVec.and_allOnes, BitVec.and_zero] at h
  exact h

theorem wordOff4_and (n : Int) (r119 r86 : Reg) (f3 op : BitVec 3) :
    wordOff4 n r119 r86 f3 op &&& 0x003F#16 = 0#4 ++ 0#3 ++ 0#3 ++ f3 ++ op := by
  have h := and_append5 (BitVec.ofInt 4 n) 0#4 r119.toBits 0#3 r86.toBits 0#3 f3 (BitVec.allOnes 3) op (BitVec.allOnes 3)
  simp only [BitVec.and_allOnes, BitVec.and_zero] at h
  exact h

theorem wordImm9_and (f : BitVec 1) (imm : BitVec 9) (rd : Reg) (op : BitVec 3) :
    wordImm9 f imm rd op &&& 0x8007#16 = f ++ 0#6 ++ 0#3 ++ 0#3 ++ op := by
  have h := and_append5 f (BitVec.allOnes 1) (imm.extractLsb' 3 6) 0#6 rd.toBits 0#3 (imm.extractLsb' 0 3) 0#3 op
    (BitVec.allOnes 3)
  simp only [BitVec.and_allOnes, BitVec.and_zero] at h
  exact h

theorem wordSys_and (n : Nat) (f3 : BitVec 3) : wordSys n f3 &&& 0x003F#16 = 0#10 ++ f3 ++ 0b111#3 := by
  have h := and_append3 (BitVec.ofNat 10 n) 0#10 f3 (BitVec.allOnes 3) 0b111#3 (BitVec.allOnes 3)
  simp only [BitVec.and_allOnes, BitVec.and_zero] at h
  exact h

theorem wordR_fields (f4 : BitVec 4) (rs2 rd : Reg) (f3 : BitVec 3) :
    opField (wordR f4 rs2 rd f3) = 0b000#3 ∧ funct3Field (wordR f4 rs2 rd f3) = f3 ∧ reg86 (wordR f4 rs2 rd f3) = rd ∧
    reg119 (wordR f4 rs2 rd f3) = rs2 ∧ funct4Field (wordR f4 rs2 rd f3) = f4 := by
  unfold opField funct3Field reg86 reg119 funct4Field wordR
  refine ⟨?_, ?_, ?_, ?_, ?_⟩
  · rw [BitVec.extractLsb'_append_eq_of_add_le (by decide)]; simp
  · rw [BitVec.extractLsb'_append_eq_of_le (by decide), BitVec.extractLsb'_append_eq_of_add_le (by decide)]; simp
  · rw [BitVec.extractLsb'_append_eq_of_le (by decide), BitVec.extractLsb'_append_eq_of_le (by decide),
      BitVec.extractLsb'_append_eq_of_add_le (by decide)]; simp
  · rw [BitVec.extractLsb'_append_eq_of_le (by decide), BitVec.extractLsb'_append_eq_of_le (by decide),
      BitVec.extractLsb'_append_eq_of_le (by decide), BitVec.extractLsb'_append_eq_of_add_le (by decide)]; simp
  · rw [BitVec.extractLsb'_append_eq_of_le (by decide), BitVec.extractLsb'_append_eq_of_le (by decide),
      BitVec.extractLsb'_append_eq_of_le (by decide), BitVec.extractLsb'_append_eq_of_le (by decide)]; simp

theorem wordI_fields (n : Int) (rd : Reg) (f3 : BitVec 3) :
    opField (wordI n rd f3) = 0b001#3 ∧ funct3Field (wordI n rd f3) = f3 ∧ reg86 (wordI n rd f3) = rd ∧
    simmField (wordI n rd f3) = (BitVec.ofInt 7 n).toInt := by
  unfold opField funct3Field reg86 simmField wordI
  refine ⟨?_, ?_, ?_, ?_⟩
  · rw [BitVec.extractLsb'_append_eq_of_add_le (by decide)]; simp
  · rw [BitVec.extractLsb'_append_eq_of_le (by decide), BitVec.extractLsb'_append_eq_of_add_le (by decide)]; simp
  · rw [BitVec.extractLsb'_append_eq_of_le (by decide), BitVec.extractLsb'_append_eq_of_le (by decide),
      BitVec.extractLsb'_append_eq_of_add_le (by decide)]; simp
  · rw [BitVec.extractLsb'_append_eq_of_le (by decide), BitVec.extractLsb'_append_eq_of_le (by decide),
      BitVec.extractLsb'_append_eq_of_le (by decide)]; simp

theorem wordShift_fields (sel : BitVec 3) (n : Nat) (rd : Reg) :
    opField (wordShift sel n rd) = 0b001#3 ∧ funct3Field (wordShift sel n rd) = 0b011#3 ∧ reg86 (wordShift sel n rd) = rd ∧
    shamtField (wordShift sel n rd) = (BitVec.ofNat 4 n).toNat ∧ shselField (wordShift sel n rd) = sel := by
  unfold opField funct3Field reg86 shamtField shselField wordShift
  refine ⟨?_, ?_, ?_, ?_, ?_⟩
  · rw [BitVec.extractLsb'_append_eq_of_add_le (by decide)]; simp
  · rw [BitVec.extractLsb'_append_eq_of_le (by decide), BitVec.extractLsb'_append_eq_of_add_le (by decide)]; simp
  · rw [BitVec.extractLsb'_append_eq_of_le (by decide), BitVec.extractLsb'_append_eq_of_le (by decide),
      BitVec.extractLsb'_append_eq_of_add_le (by decide)]; simp
  · rw [BitVec.extractLsb'_append_eq_of_le (by decide), BitVec.extractLsb'_append_eq_of_le (by decide),
      BitVec.extractLsb'_append_eq_of_le (by decide), BitVec.extractLsb'_append_eq_of_add_le (by decide)]; simp
  · rw [BitVec.extractLsb'_append_eq_of_le (by decide), BitVec.extractLsb'_append_eq_of_le (by decide),
      BitVec.extractLsb'_append_eq_of_le (by decide), BitVec.extractLsb'_append_eq_of_le (by decide)]; simp

theorem wordOff4_fields (n : Int) (r119 r86 : Reg) (f3 op : BitVec 3) :
    opField (wordOff4 n r119 r86 f3 op) = op ∧ funct3Field (wordOff4 n r119 r86 f3 op) = f3 ∧
    reg86 (wordOff4 n r119 r86 f3 op) = r86 ∧ reg119 (wordOff4 n r119 r86 f3 op) = r119 ∧
    off4Field (wordOff4 n r119 r86 f3 op) = (BitVec.ofInt 4 n).toInt := by
  unfold opField funct3Field reg86 reg119 off4Field wordOff4
  refine ⟨?_, ?_, ?_, ?_, ?_⟩
  · rw [BitVec.extractLsb'_append_eq_of_add_le (by decide)]; simp
  · rw [BitVec.extractLsb'_append_eq_of_le (by decide), BitVec.extractLsb'_append_eq_of_add_le (by decide)]; simp
  · rw [BitVec.extractLsb'_append_eq_of_le (by decide), BitVec.extractLsb'_append_eq_of_le (by decide),
      BitVec.extractLsb'_append_eq_of_add_le (by decide)]; simp
  · rw [BitVec.extractLsb'_append_eq_of_le (by decide), BitVec.extractLsb'_append_eq_of_le (by decide),
      BitVec.extractLsb'_append_eq_of_le (by decide), BitVec.extractLsb'_append_eq_of_add_le (by decide)]; simp
  · rw [BitVec.extractLsb'_append_eq_of_le (by decide), BitVec.extractLsb'_append_eq_of_le (by decide),
      BitVec.extractLsb'_append_eq_of_le (by decide), BitVec.extractLsb'_append_eq_of_le (by decide)]; simp

/-- The nine immediate bits put together again. -/
theorem imm9_join (imm : BitVec 9) : imm.extractLsb' 3 6 ++ imm.extractLsb' 0 3 = imm := by
  apply BitVec.eq_of_getLsbD_eq
  intro i hi
  simp only [BitVec.getLsbD_append, BitVec.getLsbD_extractLsb']
  by_cases h : i < 3
  · simp [h]
  · simp [h, show i - 3 < 6 by omega, show 3 + (i - 3) = i by omega]

theorem wordImm9_fields (f : BitVec 1) (imm : BitVec 9) (rd : Reg) (op : BitVec 3) :
    opField (wordImm9 f imm rd op) = op ∧ fField (wordImm9 f imm rd op) = f ∧ reg86 (wordImm9 f imm rd op) = rd ∧
    imm9Field (wordImm9 f imm rd op) = imm := by
  have hlo : (wordImm9 f imm rd op).extractLsb' 3 3 = imm.extractLsb' 0 3 := by
    unfold wordImm9
    rw [BitVec.extractLsb'_append_eq_of_le (by decide), BitVec.extractLsb'_append_eq_of_add_le (by decide)]; simp
  have hhi : (wordImm9 f imm rd op).extractLsb' 9 6 = imm.extractLsb' 3 6 := by
    unfold wordImm9
    rw [BitVec.extractLsb'_append_eq_of_le (by decide), BitVec.extractLsb'_append_eq_of_le (by decide),
      BitVec.extractLsb'_append_eq_of_le (by decide), BitVec.extractLsb'_append_eq_of_add_le (by decide)]; simp
  refine ⟨?_, ?_, ?_, ?_⟩
  · unfold opField wordImm9
    rw [BitVec.extractLsb'_append_eq_of_add_le (by decide)]; simp
  · unfold fField wordImm9
    rw [BitVec.extractLsb'_append_eq_of_le (by decide), BitVec.extractLsb'_append_eq_of_le (by decide),
      BitVec.extractLsb'_append_eq_of_le (by decide), BitVec.extractLsb'_append_eq_of_le (by decide)]; simp
  · unfold reg86 wordImm9
    rw [BitVec.extractLsb'_append_eq_of_le (by decide), BitVec.extractLsb'_append_eq_of_le (by decide),
      BitVec.extractLsb'_append_eq_of_add_le (by decide)]; simp
  · rw [imm9Field, hlo, hhi, imm9_join]

theorem wordSys_fields (n : Nat) (f3 : BitVec 3) :
    opField (wordSys n f3) = 0b111#3 ∧ funct3Field (wordSys n f3) = f3 ∧
    serviceField (wordSys n f3) = (BitVec.ofNat 10 n).toNat := by
  unfold opField funct3Field serviceField wordSys
  refine ⟨?_, ?_, ?_⟩
  · rw [BitVec.extractLsb'_append_eq_of_add_le (by decide)]; simp
  · rw [BitVec.extractLsb'_append_eq_of_le (by decide), BitVec.extractLsb'_append_eq_of_add_le (by decide)]; simp
  · rw [BitVec.extractLsb'_append_eq_of_le (by decide), BitVec.extractLsb'_append_eq_of_le (by decide)]; simp

end Sys2Proof
end

