-- ==== Sys2Proof/Laws/Exec.lean ====
section
/-! SUPPORT. What any instruction and any step can do, said once; later proofs cite this and unfold neither `exec` nor `step`. -/

namespace Sys2Proof.Safety

open Sys2Proof.Machine

/-- What an instruction can do, and which instructions do it: write a register and go on; set `pc`; do both; store a byte or a word;
emit an output and go on; halt; fault on its data access; fault past the end of memory in `ecall 5`. -/
theorem exec_cases (i : Instr) (s : State) :
    (∃ rd v, exec i s = writeResult rd v s ∧ destination i = some rd ∧ jumpsThroughRegister i = false ∧ i ≠ .ecall 3) ∨
    (∃ t, exec i s = .next (s.setPc t) ∧ i ≠ .ecall 3 ∧ (jumpsThroughRegister i = false → t.toNat % 2 = s.pc.toNat % 2)) ∨
    (∃ rd v t, exec i s = .next ((s.setReg rd v).setPc t) ∧ destination i = some rd ∧ i ≠ .ecall 3 ∧
      (jumpsThroughRegister i = false → t.toNat % 2 = s.pc.toNat % 2)) ∨
    (∃ m ea v, memWrite8 s.mem ea v = .ok m ∧ storedBytes s i = some (ea, 1) ∧ exec i s = .next (s.setMem m).advance) ∨
    (∃ m ea v, memWrite16 s.mem ea v = .ok m ∧ storedBytes s i = some (ea, 2) ∧ exec i s = .next (s.setMem m).advance) ∨
    (∃ o, exec i s = .next (s.emit (.ecallOutput o)).advance ∧ ∃ n, i = .ecall n ∧ n ≠ 3) ∨
    (exec i s = .next (s.emit (.ecallOutput .terminate)).haltRun ∧ i = .ecall 3) ∨
    (∃ ea n, exec i s = .fault (.memoryBounds ea n) ∧ dataAccess s i = some (ea, n) ∧
      inBounds ea n = false ∧ (n = 1 ∨ n = 2)) ∨
    (exec i s = .fault (.memoryBounds 65536 1) ∧ i = .ecall 5) := by
  have par : ∀ n : Int, (u16 (s.pc.toNat + 2 * n)).toNat % 2 = s.pc.toNat % 2 := by
    intro n; have := u16_toNat (s.pc.toNat + 2 * n); omega
  have par2 : ∀ n : Int, (u16 (s.pc.toNat + 2 * n + 2)).toNat % 2 = s.pc.toNat % 2 := by
    intro n; have := u16_toNat (s.pc.toNat + 2 * n + 2); omega
  have par0 : s.nextPc.toNat % 2 = s.pc.toNat % 2 := by
    rw [nextPc_eq_u16]; have := u16_toNat (s.pc.toNat + 2); omega
  have hb : ∀ (c : Bool) (n : Int), (if c = true then compareTarget n s else s.nextPc).toNat % 2 = s.pc.toNat % 2 := by
    intro c n; cases c
    · exact par0
    · exact par2 n
  have hz : ∀ (c : Bool) (n : Int), (if c = true then zeroTestTarget n s else s.nextPc).toNat % 2 = s.pc.toNat % 2 := by
    intro c n; cases c
    · exact par0
    · exact par n
  cases i
  case jr rd => exact .inr (.inl ⟨_, rfl, nofun, nofun⟩)
  case jalr rd rs => exact .inr (.inr (.inl ⟨_, _, _, rfl, rfl, nofun, nofun⟩))
  case j n => exact .inr (.inl ⟨_, rfl, nofun, fun _ => par n⟩)
  case jal rd n => exact .inr (.inr (.inl ⟨_, _, _, rfl, rfl, nofun, fun _ => par n⟩))
  case beq | bne | blt | bge | bltu | bgeu => exact .inr (.inl ⟨_, branchTo_eq _ _ _, nofun, fun _ => hb _ _⟩)
  case bz | bnz => exact .inr (.inl ⟨_, branchTo_eq _ _ _, nofun, fun _ => hz _ _⟩)
  case sb rs2 rs1 n =>
    rcases storeResult_cases (memWrite8 s.mem (effectiveAddress rs1 n s) (s.reg rs2)) s with ⟨m, h1, h2⟩ | ⟨f, h1, h2⟩
    · exact .inr (.inr (.inr (.inl ⟨m, _, _, h1, rfl, h2⟩)))
    · obtain ⟨hb, rfl⟩ := memWrite8_error h1
      exact .inr (.inr (.inr (.inr (.inr (.inr (.inr (.inl ⟨_, _, h2, rfl, hb, .inl rfl⟩)))))))
  case sw rs2 rs1 n =>
    rcases storeResult_cases (memWrite16 s.mem (effectiveAddress rs1 n s) (s.reg rs2)) s with ⟨m, h1, h2⟩ | ⟨f, h1, h2⟩
    · exact .inr (.inr (.inr (.inr (.inl ⟨m, _, _, h1, rfl, h2⟩))))
    · obtain ⟨hb, rfl⟩ := memWrite16_error h1
      exact .inr (.inr (.inr (.inr (.inr (.inr (.inr (.inl ⟨_, _, h2, rfl, hb, .inr rfl⟩)))))))
  case lb rd rs2 n =>
    rcases loadResult_cases rd ((memRead8 s.mem (effectiveAddress rs2 n s)).map signExtendByte) s
      with ⟨m, h1, h2⟩ | ⟨f, h1, h2⟩
    · exact .inl ⟨rd, m, h2, rfl, rfl, nofun⟩
    · obtain ⟨hb, rfl⟩ := memRead8_error ((map_error_iff _ _ _).mp h1)
      exact .inr (.inr (.inr (.inr (.inr (.inr (.inr (.inl ⟨_, _, h2, rfl, hb, .inl rfl⟩)))))))
  case lbu rd rs2 n =>
    rcases loadResult_cases rd ((memRead8 s.mem (effectiveAddress rs2 n s)).map zeroExtendByte) s
      with ⟨m, h1, h2⟩ | ⟨f, h1, h2⟩
    · exact .inl ⟨rd, m, h2, rfl, rfl, nofun⟩
    · obtain ⟨hb, rfl⟩ := memRead8_error ((map_error_iff _ _ _).mp h1)
      exact .inr (.inr (.inr (.inr (.inr (.inr (.inr (.inl ⟨_, _, h2, rfl, hb, .inl rfl⟩)))))))
  case lw rd rs2 n =>
    rcases loadResult_cases rd ((memRead16 s.mem (effectiveAddress rs2 n s))) s with ⟨m, h1, h2⟩ | ⟨f, h1, h2⟩
    · exact .inl ⟨rd, m, h2, rfl, rfl, nofun⟩
    · obtain ⟨hb, rfl⟩ := memRead16_error h1
      exact .inr (.inr (.inr (.inr (.inr (.inr (.inr (.inl ⟨_, _, h2, rfl, hb, .inr rfl⟩)))))))
  case ecall n =>
    by_cases h1 : n = 1
    · subst h1; exact .inr (.inr (.inr (.inr (.inr (.inl ⟨_, rfl, 1, rfl, by decide⟩)))))
    by_cases h3 : n = 3
    · subst h3; exact .inr (.inr (.inr (.inr (.inr (.inr (.inl ⟨rfl, rfl⟩))))))
    by_cases h5 : n = 5
    · subst h5
      cases hr : readString s.mem (s.reg .a0) with
      | ok bs =>
        exact .inr (.inr (.inr (.inr (.inr (.inl ⟨.printString bs,
          by simp [exec, execEcall, servicePrintString, hr], 5, rfl, by decide⟩)))))
      | error f =>
        rw [readString_error hr] at hr
        exact .inr (.inr (.inr (.inr (.inr (.inr (.inr (.inr ⟨by simp [exec, execEcall, servicePrintString, hr], rfl⟩)))))))
    · exact .inr (.inr (.inr (.inr (.inr (.inl ⟨.other n,
        by simp [exec, execEcall, serviceOther], n, rfl, h3⟩)))))
  all_goals exact .inl ⟨_, _, rfl, rfl, rfl, nofun⟩

/-- No instruction is refused. -/
theorem exec_ne_refused (i : Instr) (s : State) (r : Refusal) : exec i s ≠ .refused r := by
  intro h
  rcases exec_cases i s with ⟨_, _, e, _⟩ | ⟨_, e, _⟩ | ⟨_, _, _, e, _⟩ | ⟨_, _, _, _, _, e⟩ | ⟨_, _, _, _, _, e⟩ | ⟨_, e, _⟩ |
    ⟨e, _⟩ | ⟨_, _, e, _⟩ | ⟨e, _⟩ <;> exact nomatch e.symm.trans h

/-- What a step can do with the word at `pc`: run the instruction to its next state, stop on its fault, or step over an unknown
encoding; before that the three stops without a fetch and the fault of the fetch. -/
theorem step_full (s : State) :
    (∃ r, s.status = .stopped r ∧ step s = .next s) ∨
    (s.status = .running ∧ s.programSize ≤ s.pc.toNat ∧ step s = .next (s.stop .endOfProgram)) ∨
    (s.status = .running ∧ s.pc.toNat < s.programSize ∧ 10000 ≤ s.icount ∧ step s = .next (stopOnBudget s)) ∨
    (s.status = .running ∧ s.pc.toNat < s.programSize ∧ s.icount < 10000 ∧
      ∃ f, fetch s = .error f ∧ step s = .next (s.takeFault f)) ∨
    (s.status = .running ∧ s.pc.toNat < s.programSize ∧ s.icount < 10000 ∧ ∃ w, fetch s = .ok w ∧
      ((∃ i t, decodeWord w = .ok i ∧ exec i (beginInstruction w s) = .next t ∧ step s = .next t) ∨
       (∃ i f, decodeWord w = .ok i ∧ exec i (beginInstruction w s) = .fault f ∧
          step s = .next ((beginInstruction w s).takeFault f)) ∨
       (decodeWord w = .error (.unknownEncoding w) ∧ step s = .next (stepOverUnknown w (beginInstruction w s))))) := by
  rcases step_cases s with ⟨r, e, h⟩ | ⟨a, e, h⟩ | ⟨a, b, e, h⟩ | ⟨f, a, b, c, e, h⟩ | ⟨w, a, b, c, e, h⟩
  · exact .inl ⟨r, e, h⟩
  · exact .inr (.inl ⟨a, e, h⟩)
  · exact .inr (.inr (.inl ⟨a, b, e, h⟩))
  · exact .inr (.inr (.inr (.inl ⟨a, b, c, f, e, h⟩)))
  · refine .inr (.inr (.inr (.inr ⟨a, b, c, w, e, ?_⟩)))
    rcases decodeWord_cases w with ⟨i, _, hd⟩ | ⟨_, hd⟩
    · cases hx : exec i (beginInstruction w s) with
      | next t => exact .inl ⟨i, t, hd, hx, by rw [h, executeWord, hd]; simp only [hx]; rfl⟩
      | fault f => exact .inr (.inl ⟨i, f, hd, hx, by rw [h, executeWord, hd]; simp only [hx]; rfl⟩)
      | refused r => exact absurd hx (exec_ne_refused _ _ _)
    · exact .inr (.inr ⟨hd, by rw [h, executeWord, hd]; rfl⟩)

/-- A run goes on with the next state. -/
theorem run_next (M : Host.Core) (k : Nat) (s t : M.State) (h : M.step s = .next t) : M.run (k + 1) s = M.run k t := by
  rw [Host.Core.run, h]

end Sys2Proof.Safety
end

