-- ==== Sys2Proof/Laws/Fields.lean ====
section
/-! SUPPORT. The spec's notation (00_scope.md R6 to R8) and the decoder's fields are the same numbers, and a word of a row has the
selecting fields of its pattern. -/

namespace Sys2Proof.Safety

open Sys2Proof.Machine

theorem extractLsb'_toNat_div (w : Word) (start len : Nat) :
    (w.extractLsb' start len).toNat = w.toNat / 2 ^ start % 2 ^ len := by
  simp [BitVec.extractLsb'_toNat, Nat.shiftRight_eq_div_pow]

theorem regOfIndex_toNat (b : BitVec 3) : regOfIndex b.toNat = Reg.ofBits b := by revert b; decide

theorem regAt_six (w : Word) : regAt w 6 = reg86 w := by
  rw [reg86, ← regOfIndex_toNat, extractLsb'_toNat_div]; rfl

theorem regAt_nine (w : Word) : regAt w 9 = reg119 w := by
  rw [reg119, ← regOfIndex_toNat, extractLsb'_toNat_div]; rfl

/-- `sext_N` of a field is its two's-complement reading. -/
theorem sext_toNat {n : Nat} (hn : 0 < n) (b : BitVec n) : sext n b.toNat = b.toInt := by
  obtain ⟨m, rfl⟩ : ∃ m, n = m + 1 := ⟨n - 1, by omega⟩
  have hp : 2 ^ (m + 1) = 2 * 2 ^ m := by rw [Nat.pow_succ, Nat.mul_comm]
  simp only [sext, BitVec.toInt_eq_toNat_cond, Nat.add_sub_cancel]
  have := b.isLt
  split_ifs <;> push_cast <;> first | rfl | omega

theorem sext_seven (w : Word) : sext 7 (slice w 15 9) = simmField w := by
  rw [simmField, ← sext_toNat (by decide), extractLsb'_toNat_div]; rfl

theorem sext_four (w : Word) : sext 4 (slice w 15 12) = off4Field w := by
  rw [off4Field, ← sext_toNat (by decide), extractLsb'_toNat_div]; rfl

theorem imm9_eq (w : Word) : imm9 w = (imm9Field w).toNat := by
  have h : (imm9Field w).toNat = (w.extractLsb' 9 6).toNat <<< 3 ||| (w.extractLsb' 3 3).toNat := BitVec.toNat_append _ _
  rw [h, Nat.shiftLeft_eq, Nat.mul_comm, ← Nat.two_pow_add_eq_or_of_lt (BitVec.isLt _), extractLsb'_toNat_div,
    extractLsb'_toNat_div]
  simp only [imm9, slice]
  omega

theorem sext_nine (w : Word) : sext 9 (imm9 w) = (imm9Field w).toInt := by
  rw [imm9_eq, sext_toNat (by decide)]

theorem slice_shamt (w : Word) : slice w 12 9 = shamtField w := by
  rw [shamtField, extractLsb'_toNat_div]; rfl

theorem slice_service (w : Word) : slice w 15 6 = serviceField w := by
  rw [serviceField, extractLsb'_toNat_div]; rfl

/-! ### Rows by their selecting fields -/

/-- A row of the R format (mask `0xF03F`). -/
theorem encodedAs_r {pat : Word} {f : Word → Instr}
    (h : ∀ w, opField w = pat.extractLsb' 0 3 → funct3Field w = pat.extractLsb' 3 3 →
      funct4Field w = pat.extractLsb' 12 4 → decodeFields w = some (f w)) : encodedAs 0xF03F#16 pat f := by
  intro w hw
  have e := h w (field_of_mask 0 3 hw (by decide)) (field_of_mask 3 3 hw (by decide)) (field_of_mask 12 4 hw (by decide))
  simp [decodeWord, e]

/-- A row selected by `op` and `funct3` (mask `0x003F`). -/
theorem encodedAs_funct3 {pat : Word} {f : Word → Instr}
    (h : ∀ w, opField w = pat.extractLsb' 0 3 → funct3Field w = pat.extractLsb' 3 3 → decodeFields w = some (f w)) :
    encodedAs 0x003F#16 pat f := by
  intro w hw
  have e := h w (field_of_mask 0 3 hw (by decide)) (field_of_mask 3 3 hw (by decide))
  simp [decodeWord, e]

/-- A row of the shift group (mask `0xE03F`). -/
theorem encodedAs_shift {pat : Word} {f : Word → Instr}
    (h : ∀ w, opField w = pat.extractLsb' 0 3 → funct3Field w = pat.extractLsb' 3 3 →
      shselField w = pat.extractLsb' 13 3 → decodeFields w = some (f w)) : encodedAs 0xE03F#16 pat f := by
  intro w hw
  have e := h w (field_of_mask 0 3 hw (by decide)) (field_of_mask 3 3 hw (by decide)) (field_of_mask 13 3 hw (by decide))
  simp [decodeWord, e]

/-- A row of the J or U format (mask `0x8007`). -/
theorem encodedAs_f {pat : Word} {f : Word → Instr}
    (h : ∀ w, opField w = pat.extractLsb' 0 3 → fField w = pat.extractLsb' 15 1 → decodeFields w = some (f w)) :
    encodedAs 0x8007#16 pat f := by
  intro w hw
  have e := h w (field_of_mask 0 3 hw (by decide)) (field_of_mask 15 1 hw (by decide))
  simp [decodeWord, e]

/-! ### The shapes of the instructions, in the terms of the claims -/

/-- An instruction that is `writeResult` completes, writing its destination. -/
theorem completesWriting_of_writeResult {i : Instr} {rd : Reg} {v : Word} {s : State} (h : exec i s = writeResult rd v s) :
    completesWriting i rd v s :=
  ⟨_, h, by simp, by simp [nextPc_eq_u16], fun r hr => by
    have : r ≠ rd := fun e => hr (by rw [e])
    simp [State.reg_setReg_other _ _ this], fun a => by simp, by simp [sameRun]⟩

/-- An instruction that only sets `pc` completes there. -/
theorem completesAt_of_setPc {i : Instr} {t : Word} {s : State} (h : exec i s = .next (s.setPc t)) : completesAt i t s :=
  ⟨_, h, by simp, fun r _ => by simp, fun a => by simp, by simp [sameRun]⟩

end Sys2Proof.Safety
end

