-- ==== Sys2Proof/Laws/PerInstr.lean ====
section
/-! SUPPORT. The per-instruction family `EncodedWordInRow`: the word the encoder writes lies in the instruction's row of the
opcode map 30_encoding.md R60. -/

namespace Sys2Proof.Laws

/-- The encoded word matches the mask and pattern of the instruction's row. -/
def EncodedWordInRow.Statement (i : Instr) : Prop := i.rowMatches (encode i)

theorem EncodedWordInRow.add (rd_rs1 rs2 : Reg) : EncodedWordInRow.Statement (.add rd_rs1 rs2) :=
  wordR_and _ _ _ _

theorem EncodedWordInRow.sub (rd_rs1 rs2 : Reg) : EncodedWordInRow.Statement (.sub rd_rs1 rs2) :=
  wordR_and _ _ _ _

theorem EncodedWordInRow.slt (rd_rs1 rs2 : Reg) : EncodedWordInRow.Statement (.slt rd_rs1 rs2) :=
  wordR_and _ _ _ _

theorem EncodedWordInRow.sltu (rd_rs1 rs2 : Reg) : EncodedWordInRow.Statement (.sltu rd_rs1 rs2) :=
  wordR_and _ _ _ _

theorem EncodedWordInRow.sll (rd_rs1 rs2 : Reg) : EncodedWordInRow.Statement (.sll rd_rs1 rs2) :=
  wordR_and _ _ _ _

theorem EncodedWordInRow.srl (rd_rs1 rs2 : Reg) : EncodedWordInRow.Statement (.srl rd_rs1 rs2) :=
  wordR_and _ _ _ _

theorem EncodedWordInRow.sra (rd_rs1 rs2 : Reg) : EncodedWordInRow.Statement (.sra rd_rs1 rs2) :=
  wordR_and _ _ _ _

theorem EncodedWordInRow.or (rd_rs1 rs2 : Reg) : EncodedWordInRow.Statement (.or rd_rs1 rs2) :=
  wordR_and _ _ _ _

theorem EncodedWordInRow.and (rd_rs1 rs2 : Reg) : EncodedWordInRow.Statement (.and rd_rs1 rs2) :=
  wordR_and _ _ _ _

theorem EncodedWordInRow.xor (rd_rs1 rs2 : Reg) : EncodedWordInRow.Statement (.xor rd_rs1 rs2) :=
  wordR_and _ _ _ _

theorem EncodedWordInRow.mv (rd_rs1 rs2 : Reg) : EncodedWordInRow.Statement (.mv rd_rs1 rs2) :=
  wordR_and _ _ _ _

theorem EncodedWordInRow.jr (rd_rs1 : Reg) : EncodedWordInRow.Statement (.jr rd_rs1) :=
  wordR_and _ _ _ _

theorem EncodedWordInRow.jalr (rd_rs1 rs2 : Reg) : EncodedWordInRow.Statement (.jalr rd_rs1 rs2) :=
  wordR_and _ _ _ _

theorem EncodedWordInRow.addi (rd_rs1 : Reg) (simm : Int) : EncodedWordInRow.Statement (.addi rd_rs1 simm) :=
  wordI_and _ _ _

theorem EncodedWordInRow.slti (rd_rs1 : Reg) (simm : Int) : EncodedWordInRow.Statement (.slti rd_rs1 simm) :=
  wordI_and _ _ _

theorem EncodedWordInRow.sltui (rd_rs1 : Reg) (simm : Int) : EncodedWordInRow.Statement (.sltui rd_rs1 simm) :=
  wordI_and _ _ _

theorem EncodedWordInRow.slli (rd_rs1 : Reg) (shamt : Nat) : EncodedWordInRow.Statement (.slli rd_rs1 shamt) :=
  wordShift_and _ _ _

theorem EncodedWordInRow.srli (rd_rs1 : Reg) (shamt : Nat) : EncodedWordInRow.Statement (.srli rd_rs1 shamt) :=
  wordShift_and _ _ _

theorem EncodedWordInRow.srai (rd_rs1 : Reg) (shamt : Nat) : EncodedWordInRow.Statement (.srai rd_rs1 shamt) :=
  wordShift_and _ _ _

theorem EncodedWordInRow.ori (rd_rs1 : Reg) (simm : Int) : EncodedWordInRow.Statement (.ori rd_rs1 simm) :=
  wordI_and _ _ _

theorem EncodedWordInRow.andi (rd_rs1 : Reg) (simm : Int) : EncodedWordInRow.Statement (.andi rd_rs1 simm) :=
  wordI_and _ _ _

theorem EncodedWordInRow.xori (rd_rs1 : Reg) (simm : Int) : EncodedWordInRow.Statement (.xori rd_rs1 simm) :=
  wordI_and _ _ _

theorem EncodedWordInRow.li (rd_rs1 : Reg) (simm : Int) : EncodedWordInRow.Statement (.li rd_rs1 simm) :=
  wordI_and _ _ _

theorem EncodedWordInRow.beq (rs1 rs2 : Reg) (boff : Int) : EncodedWordInRow.Statement (.beq rs1 rs2 boff) :=
  wordOff4_and _ _ _ _ _

theorem EncodedWordInRow.bne (rs1 rs2 : Reg) (boff : Int) : EncodedWordInRow.Statement (.bne rs1 rs2 boff) :=
  wordOff4_and _ _ _ _ _

theorem EncodedWordInRow.bz (rs1 : Reg) (boff : Int) : EncodedWordInRow.Statement (.bz rs1 boff) :=
  wordOff4_and _ _ _ _ _

theorem EncodedWordInRow.bnz (rs1 : Reg) (boff : Int) : EncodedWordInRow.Statement (.bnz rs1 boff) :=
  wordOff4_and _ _ _ _ _

theorem EncodedWordInRow.blt (rs1 rs2 : Reg) (boff : Int) : EncodedWordInRow.Statement (.blt rs1 rs2 boff) :=
  wordOff4_and _ _ _ _ _

theorem EncodedWordInRow.bge (rs1 rs2 : Reg) (boff : Int) : EncodedWordInRow.Statement (.bge rs1 rs2 boff) :=
  wordOff4_and _ _ _ _ _

theorem EncodedWordInRow.bltu (rs1 rs2 : Reg) (boff : Int) : EncodedWordInRow.Statement (.bltu rs1 rs2 boff) :=
  wordOff4_and _ _ _ _ _

theorem EncodedWordInRow.bgeu (rs1 rs2 : Reg) (boff : Int) : EncodedWordInRow.Statement (.bgeu rs1 rs2 boff) :=
  wordOff4_and _ _ _ _ _

theorem EncodedWordInRow.sb (rs2 rs1 : Reg) (moff : Int) : EncodedWordInRow.Statement (.sb rs2 rs1 moff) :=
  wordOff4_and _ _ _ _ _

theorem EncodedWordInRow.sw (rs2 rs1 : Reg) (moff : Int) : EncodedWordInRow.Statement (.sw rs2 rs1 moff) :=
  wordOff4_and _ _ _ _ _

theorem EncodedWordInRow.lb (rd rs2 : Reg) (moff : Int) : EncodedWordInRow.Statement (.lb rd rs2 moff) :=
  wordOff4_and _ _ _ _ _

theorem EncodedWordInRow.lw (rd rs2 : Reg) (moff : Int) : EncodedWordInRow.Statement (.lw rd rs2 moff) :=
  wordOff4_and _ _ _ _ _

theorem EncodedWordInRow.lbu (rd rs2 : Reg) (moff : Int) : EncodedWordInRow.Statement (.lbu rd rs2 moff) :=
  wordOff4_and _ _ _ _ _

theorem EncodedWordInRow.j (jimm : Int) : EncodedWordInRow.Statement (.j jimm) :=
  wordImm9_and _ _ _ _

theorem EncodedWordInRow.jal (rd : Reg) (jimm : Int) : EncodedWordInRow.Statement (.jal rd jimm) :=
  wordImm9_and _ _ _ _

theorem EncodedWordInRow.lui (rd : Reg) (uimm9 : Nat) : EncodedWordInRow.Statement (.lui rd uimm9) :=
  wordImm9_and _ _ _ _

theorem EncodedWordInRow.auipc (rd : Reg) (uimm9 : Nat) : EncodedWordInRow.Statement (.auipc rd uimm9) :=
  wordImm9_and _ _ _ _

theorem EncodedWordInRow.ecall (service : Nat) : EncodedWordInRow.Statement (.ecall service) :=
  wordSys_and _ _

end Sys2Proof.Laws
end

