-- ==== Sys2Proof/Machine/Assembly.lean ====
section
/-! DEFINITION. The assembler syntax (30_encoding.md R70 to R73): the text of an instruction at an address, as bytes. It names
instructions and operands; it changes no machine state (log 23). -/

namespace Sys2Proof.Machine

/-- The ABI display name of a register (R11, R70). -/
def regName : Reg → List Char
  | .t0 => ['t', '0']
  | .ra => ['r', 'a']
  | .sp => ['s', 'p']
  | .s0 => ['s', '0']
  | .s1 => ['s', '1']
  | .t1 => ['t', '1']
  | .a0 => ['a', '0']
  | .a1 => ['a', '1']

/-- A register operand. -/
def asmReg (r : Reg) : List Byte := asciiBytes (regName r)

/-- One lowercase hexadecimal digit (R70). -/
def hexDigit (d : BitVec 4) : Byte :=
  if d.toNat < 10 then BitVec.ofNat 8 (48 + d.toNat) else BitVec.ofNat 8 (87 + d.toNat)

/-- `0x` and four lowercase hexadecimal digits: a printed target address (R70, R71). -/
def asmTarget (w : Word) : List Byte :=
  asciiBytes ['0', 'x'] ++
    [hexDigit (w.extractLsb' 12 4), hexDigit (w.extractLsb' 8 4), hexDigit (w.extractLsb' 4 4), hexDigit (w.extractLsb' 0 4)]

/-- A mnemonic, one space, then the operands separated by a comma and a space (R70). -/
def asmLine (mnemonic : List Char) (operands : List (List Byte)) : List Byte :=
  asciiBytes mnemonic ++ asciiBytes [' '] ++ (operands.intersperse (asciiBytes [',', ' '])).flatten

/-- `moff(base)` (R71). -/
def asmMem (moff : Int) (base : Reg) : List Byte :=
  decimalIntBytes moff ++ asciiBytes ['('] ++ asmReg base ++ asciiBytes [')']

/-- The taken target of a comparison branch at `addr` (R71, R140). -/
def asmCompareTarget (addr : Word) (boff : Int) : List Byte := asmTarget (u16 (addr.toNat + 2 * boff + 2))

/-- The target of `bz`, `bnz`, `j`, `jal` at `addr` (R71, R140, R180). -/
def asmPlainTarget (addr : Word) (off : Int) : List Byte := asmTarget (u16 (addr.toNat + 2 * off))

/-- The assembly text of an instruction at address `addr` (R71; radix as R72 writes it: signed decimal). -/
def asmText (addr : Word) : Instr → List Byte
  | .add rd rs2 => asmLine ['a', 'd', 'd'] [asmReg rd, asmReg rs2]
  | .sub rd rs2 => asmLine ['s', 'u', 'b'] [asmReg rd, asmReg rs2]
  | .slt rd rs2 => asmLine ['s', 'l', 't'] [asmReg rd, asmReg rs2]
  | .sltu rd rs2 => asmLine ['s', 'l', 't', 'u'] [asmReg rd, asmReg rs2]
  | .sll rd rs2 => asmLine ['s', 'l', 'l'] [asmReg rd, asmReg rs2]
  | .srl rd rs2 => asmLine ['s', 'r', 'l'] [asmReg rd, asmReg rs2]
  | .sra rd rs2 => asmLine ['s', 'r', 'a'] [asmReg rd, asmReg rs2]
  | .or rd rs2 => asmLine ['o', 'r'] [asmReg rd, asmReg rs2]
  | .and rd rs2 => asmLine ['a', 'n', 'd'] [asmReg rd, asmReg rs2]
  | .xor rd rs2 => asmLine ['x', 'o', 'r'] [asmReg rd, asmReg rs2]
  | .mv rd rs2 => asmLine ['m', 'v'] [asmReg rd, asmReg rs2]
  | .jr rd => asmLine ['j', 'r'] [asmReg rd]
  | .jalr rd rs2 => asmLine ['j', 'a', 'l', 'r'] [asmReg rd, asmReg rs2]
  | .addi rd n => asmLine ['a', 'd', 'd', 'i'] [asmReg rd, decimalIntBytes n]
  | .slti rd n => asmLine ['s', 'l', 't', 'i'] [asmReg rd, decimalIntBytes n]
  | .sltui rd n => asmLine ['s', 'l', 't', 'u', 'i'] [asmReg rd, decimalIntBytes n]
  | .slli rd n => asmLine ['s', 'l', 'l', 'i'] [asmReg rd, decimalBytes n]
  | .srli rd n => asmLine ['s', 'r', 'l', 'i'] [asmReg rd, decimalBytes n]
  | .srai rd n => asmLine ['s', 'r', 'a', 'i'] [asmReg rd, decimalBytes n]
  | .ori rd n => asmLine ['o', 'r', 'i'] [asmReg rd, decimalIntBytes n]
  | .andi rd n => asmLine ['a', 'n', 'd', 'i'] [asmReg rd, decimalIntBytes n]
  | .xori rd n => asmLine ['x', 'o', 'r', 'i'] [asmReg rd, decimalIntBytes n]
  | .li rd n => asmLine ['l', 'i'] [asmReg rd, decimalIntBytes n]
  | .beq rs1 rs2 n => asmLine ['b', 'e', 'q'] [asmReg rs1, asmReg rs2, asmCompareTarget addr n]
  | .bne rs1 rs2 n => asmLine ['b', 'n', 'e'] [asmReg rs1, asmReg rs2, asmCompareTarget addr n]
  | .bz rs1 n => asmLine ['b', 'z'] [asmReg rs1, asmPlainTarget addr n]
  | .bnz rs1 n => asmLine ['b', 'n', 'z'] [asmReg rs1, asmPlainTarget addr n]
  | .blt rs1 rs2 n => asmLine ['b', 'l', 't'] [asmReg rs1, asmReg rs2, asmCompareTarget addr n]
  | .bge rs1 rs2 n => asmLine ['b', 'g', 'e'] [asmReg rs1, asmReg rs2, asmCompareTarget addr n]
  | .bltu rs1 rs2 n => asmLine ['b', 'l', 't', 'u'] [asmReg rs1, asmReg rs2, asmCompareTarget addr n]
  | .bgeu rs1 rs2 n => asmLine ['b', 'g', 'e', 'u'] [asmReg rs1, asmReg rs2, asmCompareTarget addr n]
  | .sb rs2 rs1 n => asmLine ['s', 'b'] [asmReg rs2, asmMem n rs1]
  | .sw rs2 rs1 n => asmLine ['s', 'w'] [asmReg rs2, asmMem n rs1]
  | .lb rd rs2 n => asmLine ['l', 'b'] [asmReg rd, asmMem n rs2]
  | .lw rd rs2 n => asmLine ['l', 'w'] [asmReg rd, asmMem n rs2]
  | .lbu rd rs2 n => asmLine ['l', 'b', 'u'] [asmReg rd, asmMem n rs2]
  | .j n => asmLine ['j'] [asmPlainTarget addr n]
  | .jal rd n => asmLine ['j', 'a', 'l'] [asmReg rd, asmPlainTarget addr n]
  | .lui rd n => asmLine ['l', 'u', 'i'] [asmReg rd, decimalBytes n]
  | .auipc rd n => asmLine ['a', 'u', 'i', 'p', 'c'] [asmReg rd, decimalBytes n]
  | .ecall n => asmLine ['e', 'c', 'a', 'l', 'l'] [decimalBytes n]

end Sys2Proof.Machine
end

