-- ==== Sys2Proof/Tests/Slice0.lean ====
section
/-! SUPPORT. The model's own tests. Expected results come from spec/95_test_vectors.md (a vector is named V-...), from the rules
named, or from hand calculation after them. The theorems `test_witness_...` meet the hypotheses of the statements. -/

namespace Sys2Proof.Tests

open Sys2Proof.Machine Sys2Proof.Safety

/-! ### Helpers -/

/-- The state of the vectors' conventions: reset, `w` at `pc`, `program_size` 65 536. -/
def fetching (w pc : Word) : State :=
  { State.reset with pc := pc, programSize := 65536,
                     mem := (Memory.set [] pc.toNat (lowByte w)).set (pc.toNat + 1) (highByte w) }

/-- One more byte in memory. -/
def withByte (a : Nat) (b : Byte) (s : State) : State := s.setMem (s.mem.set a b)

/-- `pc` and one register of the answer. -/
def pcAnd (r : Reg) (o : Outcome) : Option (Word × Word) := (nextState o).map fun t => (t.pc, t.reg r)

/-- Two bytes of memory of the answer. -/
def bytesAt (a : Nat) (o : Outcome) : Option (Byte × Byte) := (nextState o).map fun t => (t.byteAt a, t.byteAt (a + 1))

/-- `pc`, status and events of the answer. -/
def runOfAnswer (o : Outcome) : Option (Word × Status × List Event) := (nextState o).map fun t => (t.pc, t.status, t.events)

/-! ### Ill-formed instructions are refused by the check (R59, R61 to R66) -/

theorem test_wellFormed_simm7 : (Instr.addi .t0 64).wellFormed = false ∧ (Instr.slti .t0 (-65)).wellFormed = false ∧
    (Instr.sltui .t0 64).wellFormed = false ∧ (Instr.ori .t0 (-65)).wellFormed = false ∧ (Instr.andi .t0 64).wellFormed = false ∧
    (Instr.xori .t0 (-65)).wellFormed = false ∧ (Instr.li .t0 64).wellFormed = false := by decide

theorem test_wellFormed_shamt : (Instr.slli .t0 16).wellFormed = false ∧ (Instr.srli .t0 16).wellFormed = false ∧
    (Instr.srai .t0 16).wellFormed = false := by decide

theorem test_wellFormed_off4_branches : (Instr.beq .t0 .t0 8).wellFormed = false ∧ (Instr.bne .t0 .t0 (-9)).wellFormed = false ∧
    (Instr.bz .t0 8).wellFormed = false ∧ (Instr.bnz .t0 (-9)).wellFormed = false ∧ (Instr.blt .t0 .t0 8).wellFormed = false ∧
    (Instr.bge .t0 .t0 (-9)).wellFormed = false ∧ (Instr.bltu .t0 .t0 8).wellFormed = false ∧
    (Instr.bgeu .t0 .t0 (-9)).wellFormed = false := by decide

theorem test_wellFormed_off4_memory : (Instr.sb .t0 .t0 8).wellFormed = false ∧ (Instr.sw .t0 .t0 (-9)).wellFormed = false ∧
    (Instr.lb .t0 .t0 8).wellFormed = false ∧ (Instr.lw .t0 .t0 (-9)).wellFormed = false ∧
    (Instr.lbu .t0 .t0 8).wellFormed = false := by decide

theorem test_wellFormed_jimm9 : (Instr.j 256).wellFormed = false ∧ (Instr.jal .t0 (-257)).wellFormed = false := by decide

theorem test_wellFormed_uimm9 : (Instr.lui .t0 512).wellFormed = false ∧ (Instr.auipc .t0 512).wellFormed = false := by decide

theorem test_wellFormed_service : (Instr.ecall 1024).wellFormed = false := by decide

/-- The ends of the ranges are accepted. -/
theorem test_wellFormed_range_ends : (Instr.addi .t0 (-64)).wellFormed = true ∧ (Instr.li .t0 63).wellFormed = true ∧
    (Instr.slli .t0 15).wellFormed = true ∧ (Instr.beq .t0 .t0 (-8)).wellFormed = true ∧ (Instr.lw .t0 .t0 7).wellFormed = true ∧
    (Instr.j (-256)).wellFormed = true ∧ (Instr.jal .t0 255).wellFormed = true ∧ (Instr.lui .t0 511).wellFormed = true ∧
    (Instr.ecall 1023).wellFormed = true := by decide

/-! ### Decoding: one word per instruction, written out from its format (R52 to R59); the hex value is the spec's own

Each theorem also shows that the word lies in the instruction's row of R60 (the hypothesis of `encodedAs`) and that the encoder
writes it. -/

/-- `0000 001 000 000 000` is 0x0200. -/
theorem test_decode_add : 0b0000001000000000#16 &&& 0xF03F#16 = 0x0000#16 ∧
    decodeWord 0b0000001000000000#16 = .ok (.add .t0 .ra) ∧ encode (.add .t0 .ra) = 0x0200#16 := by decide

/-- `0001 001 000 000 000` is 0x1200. -/
theorem test_decode_sub : 0b0001001000000000#16 &&& 0xF03F#16 = 0x1000#16 ∧
    decodeWord 0b0001001000000000#16 = .ok (.sub .t0 .ra) ∧ encode (.sub .t0 .ra) = 0x1200#16 := by decide

/-- `0000 001 000 001 000` is 0x0208. -/
theorem test_decode_slt : 0b0000001000001000#16 &&& 0xF03F#16 = 0x0008#16 ∧
    decodeWord 0b0000001000001000#16 = .ok (.slt .t0 .ra) ∧ encode (.slt .t0 .ra) = 0x0208#16 := by decide

/-- `0000 001 000 010 000` is 0x0210. -/
theorem test_decode_sltu : 0b0000001000010000#16 &&& 0xF03F#16 = 0x0010#16 ∧
    decodeWord 0b0000001000010000#16 = .ok (.sltu .t0 .ra) ∧ encode (.sltu .t0 .ra) = 0x0210#16 := by decide

/-- `0010 001 000 011 000` is 0x2218. -/
theorem test_decode_sll : 0b0010001000011000#16 &&& 0xF03F#16 = 0x2018#16 ∧
    decodeWord 0b0010001000011000#16 = .ok (.sll .t0 .ra) ∧ encode (.sll .t0 .ra) = 0x2218#16 := by decide

/-- `0100 001 000 011 000` is 0x4218. -/
theorem test_decode_srl : 0b0100001000011000#16 &&& 0xF03F#16 = 0x4018#16 ∧
    decodeWord 0b0100001000011000#16 = .ok (.srl .t0 .ra) ∧ encode (.srl .t0 .ra) = 0x4218#16 := by decide

/-- `1000 001 000 011 000` is 0x8218. -/
theorem test_decode_sra : 0b1000001000011000#16 &&& 0xF03F#16 = 0x8018#16 ∧
    decodeWord 0b1000001000011000#16 = .ok (.sra .t0 .ra) ∧ encode (.sra .t0 .ra) = 0x8218#16 := by decide

/-- `0001 001 000 100 000` is 0x1220. -/
theorem test_decode_or : 0b0001001000100000#16 &&& 0xF03F#16 = 0x1020#16 ∧
    decodeWord 0b0001001000100000#16 = .ok (.or .t0 .ra) ∧ encode (.or .t0 .ra) = 0x1220#16 := by decide

/-- `0000 001 000 101 000` is 0x0228. -/
theorem test_decode_and : 0b0000001000101000#16 &&& 0xF03F#16 = 0x0028#16 ∧
    decodeWord 0b0000001000101000#16 = .ok (.and .t0 .ra) ∧ encode (.and .t0 .ra) = 0x0228#16 := by decide

/-- `0000 001 000 110 000` is 0x0230. -/
theorem test_decode_xor : 0b0000001000110000#16 &&& 0xF03F#16 = 0x0030#16 ∧
    decodeWord 0b0000001000110000#16 = .ok (.xor .t0 .ra) ∧ encode (.xor .t0 .ra) = 0x0230#16 := by decide

/-- `0000 001 000 111 000` is 0x0238. -/
theorem test_decode_mv : 0b0000001000111000#16 &&& 0xF03F#16 = 0x0038#16 ∧
    decodeWord 0b0000001000111000#16 = .ok (.mv .t0 .ra) ∧ encode (.mv .t0 .ra) = 0x0238#16 := by decide

/-- `0100 000 001 000 000` is 0x4040. -/
theorem test_decode_jr : 0b0100000001000000#16 &&& 0xF03F#16 = 0x4000#16 ∧
    decodeWord 0b0100000001000000#16 = .ok (.jr .ra) ∧ encode (.jr .ra) = 0x4040#16 := by decide

/-- `1000 110 001 000 000` is 0x8C40. -/
theorem test_decode_jalr : 0b1000110001000000#16 &&& 0xF03F#16 = 0x8000#16 ∧
    decodeWord 0b1000110001000000#16 = .ok (.jalr .ra .a0) ∧ encode (.jalr .ra .a0) = 0x8C40#16 := by decide

/-- `1000000 000 000 001` is 0x8001. -/
theorem test_decode_addi : 0b1000000000000001#16 &&& 0x003F#16 = 0x0001#16 ∧
    decodeWord 0b1000000000000001#16 = .ok (.addi .t0 (-64)) ∧ encode (.addi .t0 (-64)) = 0x8001#16 := by decide

/-- `1111111 000 001 001` is 0xFE09. -/
theorem test_decode_slti : 0b1111111000001001#16 &&& 0x003F#16 = 0x0009#16 ∧
    decodeWord 0b1111111000001001#16 = .ok (.slti .t0 (-1)) ∧ encode (.slti .t0 (-1)) = 0xFE09#16 := by decide

/-- `1000000 000 010 001` is 0x8011. -/
theorem test_decode_sltui : 0b1000000000010001#16 &&& 0x003F#16 = 0x0011#16 ∧
    decodeWord 0b1000000000010001#16 = .ok (.sltui .t0 (-64)) ∧ encode (.sltui .t0 (-64)) = 0x8011#16 := by decide

/-- `001 1111 000 011 001` is 0x3E19. -/
theorem test_decode_slli : 0b0011111000011001#16 &&& 0xE03F#16 = 0x2019#16 ∧
    decodeWord 0b0011111000011001#16 = .ok (.slli .t0 15) ∧ encode (.slli .t0 15) = 0x3E19#16 := by decide

/-- `010 0100 000 011 001` is 0x4819. -/
theorem test_decode_srli : 0b0100100000011001#16 &&& 0xE03F#16 = 0x4019#16 ∧
    decodeWord 0b0100100000011001#16 = .ok (.srli .t0 4) ∧ encode (.srli .t0 4) = 0x4819#16 := by decide

/-- `100 1111 110 011 001` is 0x9F99. -/
theorem test_decode_srai : 0b1001111110011001#16 &&& 0xE03F#16 = 0x8019#16 ∧
    decodeWord 0b1001111110011001#16 = .ok (.srai .a0 15) ∧ encode (.srai .a0 15) = 0x9F99#16 := by decide

/-- `1110000 000 100 001` is 0xE021. -/
theorem test_decode_ori : 0b1110000000100001#16 &&& 0x003F#16 = 0x0021#16 ∧
    decodeWord 0b1110000000100001#16 = .ok (.ori .t0 (-16)) ∧ encode (.ori .t0 (-16)) = 0xE021#16 := by decide

/-- `1111110 000 101 001` is 0xFC29. -/
theorem test_decode_andi : 0b1111110000101001#16 &&& 0x003F#16 = 0x0029#16 ∧
    decodeWord 0b1111110000101001#16 = .ok (.andi .t0 (-2)) ∧ encode (.andi .t0 (-2)) = 0xFC29#16 := by decide

/-- `1111111 000 110 001` is 0xFE31. -/
theorem test_decode_xori : 0b1111111000110001#16 &&& 0x003F#16 = 0x0031#16 ∧
    decodeWord 0b1111111000110001#16 = .ok (.xori .t0 (-1)) ∧ encode (.xori .t0 (-1)) = 0xFE31#16 := by decide

/-- `1000000 000 111 001` is 0x8039. -/
theorem test_decode_li : 0b1000000000111001#16 &&& 0x003F#16 = 0x0039#16 ∧
    decodeWord 0b1000000000111001#16 = .ok (.li .t0 (-64)) ∧ encode (.li .t0 (-64)) = 0x8039#16 := by decide

/-- `1000 000 000 000 010` is 0x8002. -/
theorem test_decode_beq : 0b1000000000000010#16 &&& 0x003F#16 = 0x0002#16 ∧
    decodeWord 0b1000000000000010#16 = .ok (.beq .t0 .t0 (-8)) ∧ encode (.beq .t0 .t0 (-8)) = 0x8002#16 := by decide

/-- `1101 001 000 001 010` is 0xD20A. -/
theorem test_decode_bne : 0b1101001000001010#16 &&& 0x003F#16 = 0x000A#16 ∧
    decodeWord 0b1101001000001010#16 = .ok (.bne .t0 .ra (-3)) ∧ encode (.bne .t0 .ra (-3)) = 0xD20A#16 := by decide

/-- `0111 000 000 010 010` is 0x7012. -/
theorem test_decode_bz : 0b0111000000010010#16 &&& 0x003F#16 = 0x0012#16 ∧
    decodeWord 0b0111000000010010#16 = .ok (.bz .t0 7) ∧ encode (.bz .t0 7) = 0x7012#16 := by decide

/-- `1110 000 001 011 010` is 0xE05A. -/
theorem test_decode_bnz : 0b1110000001011010#16 &&& 0x003F#16 = 0x001A#16 ∧
    decodeWord 0b1110000001011010#16 = .ok (.bnz .ra (-2)) ∧ encode (.bnz .ra (-2)) = 0xE05A#16 := by decide

/-- `0111 001 000 100 010` is 0x7222. -/
theorem test_decode_blt : 0b0111001000100010#16 &&& 0x003F#16 = 0x0022#16 ∧
    decodeWord 0b0111001000100010#16 = .ok (.blt .t0 .ra 7) ∧ encode (.blt .t0 .ra 7) = 0x7222#16 := by decide

/-- `1000 001 000 101 010` is 0x822A. -/
theorem test_decode_bge : 0b1000001000101010#16 &&& 0x003F#16 = 0x002A#16 ∧
    decodeWord 0b1000001000101010#16 = .ok (.bge .t0 .ra (-8)) ∧ encode (.bge .t0 .ra (-8)) = 0x822A#16 := by decide

/-- `0010 001 000 110 010` is 0x2232. -/
theorem test_decode_bltu : 0b0010001000110010#16 &&& 0x003F#16 = 0x0032#16 ∧
    decodeWord 0b0010001000110010#16 = .ok (.bltu .t0 .ra 2) ∧ encode (.bltu .t0 .ra 2) = 0x2232#16 := by decide

/-- `0010 001 000 111 010` is 0x223A. -/
theorem test_decode_bgeu : 0b0010001000111010#16 &&& 0x003F#16 = 0x003A#16 ∧
    decodeWord 0b0010001000111010#16 = .ok (.bgeu .t0 .ra 2) ∧ encode (.bgeu .t0 .ra 2) = 0x223A#16 := by decide

/-- `0001 000 010 000 011` is 0x1083. -/
theorem test_decode_sb : 0b0001000010000011#16 &&& 0x003F#16 = 0x0003#16 ∧
    decodeWord 0b0001000010000011#16 = .ok (.sb .t0 .sp 1) ∧ encode (.sb .t0 .sp 1) = 0x1083#16 := by decide

/-- `1110 000 010 001 011` is 0xE08B. -/
theorem test_decode_sw : 0b1110000010001011#16 &&& 0x003F#16 = 0x000B#16 ∧
    decodeWord 0b1110000010001011#16 = .ok (.sw .t0 .sp (-2)) ∧ encode (.sw .t0 .sp (-2)) = 0xE08B#16 := by decide

/-- `1110 010 011 000 100` is 0xE4C4. -/
theorem test_decode_lb : 0b1110010011000100#16 &&& 0x003F#16 = 0x0004#16 ∧
    decodeWord 0b1110010011000100#16 = .ok (.lb .s0 .sp (-2)) ∧ encode (.lb .s0 .sp (-2)) = 0xE4C4#16 := by decide

/-- `1110 010 101 001 100` is 0xE54C. -/
theorem test_decode_lw : 0b1110010101001100#16 &&& 0x003F#16 = 0x000C#16 ∧
    decodeWord 0b1110010101001100#16 = .ok (.lw .t1 .sp (-2)) ∧ encode (.lw .t1 .sp (-2)) = 0xE54C#16 := by decide

/-- `1111 010 100 100 100` is 0xF524. -/
theorem test_decode_lbu : 0b1111010100100100#16 &&& 0x003F#16 = 0x0024#16 ∧
    decodeWord 0b1111010100100100#16 = .ok (.lbu .s1 .sp (-1)) ∧ encode (.lbu .s1 .sp (-1)) = 0xF524#16 := by decide

/-- `0 100000 000 000 101` is 0x4005. -/
theorem test_decode_j : 0b0100000000000101#16 &&& 0x8007#16 = 0x0005#16 ∧
    decodeWord 0b0100000000000101#16 = .ok (.j (-256)) ∧ encode (.j (-256)) = 0x4005#16 := by decide

/-- `1 111111 001 100 101` is 0xFE65. -/
theorem test_decode_jal : 0b1111111001100101#16 &&& 0x8007#16 = 0x8005#16 ∧
    decodeWord 0b1111111001100101#16 = .ok (.jal .ra (-4)) ∧ encode (.jal .ra (-4)) = 0xFE65#16 := by decide

/-- `0 101010 011 101 110` is 0x54EE. -/
theorem test_decode_lui : 0b0101010011101110#16 &&& 0x8007#16 = 0x0006#16 ∧
    decodeWord 0b0101010011101110#16 = .ok (.lui .s0 341) ∧ encode (.lui .s0 341) = 0x54EE#16 := by decide

/-- `1 111111 111 111 110` is 0xFFFE. -/
theorem test_decode_auipc : 0b1111111111111110#16 &&& 0x8007#16 = 0x8006#16 ∧
    decodeWord 0b1111111111111110#16 = .ok (.auipc .a1 511) ∧ encode (.auipc .a1 511) = 0xFFFE#16 := by decide

/-- `0000000011 000 111` is 0x00C7. -/
theorem test_decode_ecall : 0b0000000011000111#16 &&& 0x003F#16 = 0x0007#16 ∧
    decodeWord 0b0000000011000111#16 = .ok (.ecall 3) ∧ encode (.ecall 3) = 0x00C7#16 := by decide

/-- Ignored fields (R67; the decoding vectors `0x4E00`, `0x0E12`, `0x01C5`, V-B9). -/
theorem test_decode_ignored_fields : decodeWord 0x4E00#16 = .ok (.jr .t0) ∧ decodeWord 0x0E12#16 = .ok (.bz .t0 0) ∧
    decodeWord 0xEE5A#16 = .ok (.bnz .ra (-2)) ∧ decodeWord 0x01C5#16 = .ok (.j 0) := by decide

/-- Words that lie one bit beside an instruction (R68; the decoding vectors and V-R29 to V-R32, V-I20 to V-I22). -/
theorem test_decode_unknown : decodeWord 0x0018#16 = .error (.unknownEncoding 0x0018#16) ∧
    decodeWord 0x4008#16 = .error (.unknownEncoding 0x4008#16) ∧ decodeWord 0x6018#16 = .error (.unknownEncoding 0x6018#16) ∧
    decodeWord 0x1028#16 = .error (.unknownEncoding 0x1028#16) ∧ decodeWord 0x0019#16 = .error (.unknownEncoding 0x0019#16) ∧
    decodeWord 0xA019#16 = .error (.unknownEncoding 0xA019#16) ∧ decodeWord 0x0013#16 = .error (.unknownEncoding 0x0013#16) ∧
    decodeWord 0x001C#16 = .error (.unknownEncoding 0x001C#16) ∧ decodeWord 0x000F#16 = .error (.unknownEncoding 0x000F#16) ∧
    decodeWord 0xFFFF#16 = .error (.unknownEncoding 0xFFFF#16) := by decide

/-- Little-endian bytes (R50): the bytes `01 FE` are `addi t0, -1` (scenario 5); one byte is no instruction. -/
theorem test_decode_bytes : decode [0x01#8, 0xFE#8] = .ok (.addi .t0 (-1)) ∧ decode [0x01#8] = .error .notTwoBytes ∧
    encodeBytes (.addi .t0 (-1)) = [0x01#8, 0xFE#8] := by decide

/-- The host's two entries run the word they are given. -/
theorem test_host_entries : decodeTableWord 16 0xFE01 = some (.addi .t0 (-1)) ∧ decodeTableWord 16 0x0018 = none ∧
    pcAnd .t0 (step (State.reset.withFetchWord 16 0xFE01)) = some (0x0002#16, 0xFFFF#16) := by decide

/-! ### One step per instruction -/

/-- V-R1. -/
theorem test_step_add : pcAnd .t0 (step (((fetching 0x0200#16 0x0000#16).setReg .t0 0xFFFF#16).setReg .ra 0x0001#16)) =
    some (0x0002#16, 0x0000#16) := by decide

/-- V-R4. -/
theorem test_step_sub : pcAnd .t0 (step ((fetching 0x1200#16 0x0000#16).setReg .ra 0x0001#16)) =
    some (0x0002#16, 0xFFFF#16) := by decide

/-- V-R6. -/
theorem test_step_slt : pcAnd .t0 (step (((fetching 0x0208#16 0x0000#16).setReg .t0 0x8000#16).setReg .ra 0x7FFF#16)) =
    some (0x0002#16, 0x0001#16) := by decide

/-- V-R8. -/
theorem test_step_sltu : pcAnd .t0 (step (((fetching 0x0210#16 0x0000#16).setReg .t0 0x8000#16).setReg .ra 0x7FFF#16)) =
    some (0x0002#16, 0x0000#16) := by decide

/-- V-R12. -/
theorem test_step_sll : pcAnd .t0 (step (((fetching 0x2218#16 0x0000#16).setReg .t0 0xFFFF#16).setReg .ra 0x00F4#16)) =
    some (0x0002#16, 0xFFF0#16) := by decide

/-- V-R13. -/
theorem test_step_srl : pcAnd .t0 (step (((fetching 0x4218#16 0x0000#16).setReg .t0 0x8000#16).setReg .ra 0x000F#16)) =
    some (0x0002#16, 0x0001#16) := by decide

/-- V-R16. -/
theorem test_step_sra : pcAnd .t0 (step (((fetching 0x8218#16 0x0000#16).setReg .t0 0xFFFD#16).setReg .ra 0x0011#16)) =
    some (0x0002#16, 0xFFFE#16) := by decide

/-- V-R17. -/
theorem test_step_or : pcAnd .t0 (step (((fetching 0x1220#16 0x0000#16).setReg .t0 0x00F0#16).setReg .ra 0x0F0F#16)) =
    some (0x0002#16, 0x0FFF#16) := by decide

/-- V-R18. -/
theorem test_step_and : pcAnd .t0 (step (((fetching 0x0228#16 0x0000#16).setReg .t0 0x00F0#16).setReg .ra 0x0FF0#16)) =
    some (0x0002#16, 0x00F0#16) := by decide

/-- V-R19. -/
theorem test_step_xor : pcAnd .t0 (step (((fetching 0x0230#16 0x0000#16).setReg .t0 0xFFFF#16).setReg .ra 0x0F0F#16)) =
    some (0x0002#16, 0xF0F0#16) := by decide

/-- V-R21. -/
theorem test_step_mv : pcAnd .t0 (step (((fetching 0x0238#16 0x0000#16).setReg .t0 0x0001#16).setReg .ra 0xABCD#16)) =
    some (0x0002#16, 0xABCD#16) := by decide

/-- V-R25. -/
theorem test_step_jr : pcAnd .ra (step ((fetching 0x4040#16 0x0010#16).setReg .ra 0x0101#16)) =
    some (0x0101#16, 0x0101#16) := by decide

/-- V-R28. -/
theorem test_step_jalr : pcAnd .ra (step ((fetching 0x8C40#16 0xFFFE#16).setReg .a0 0x0200#16)) =
    some (0x0200#16, 0x0000#16) := by decide

/-- V-I3. -/
theorem test_step_addi : pcAnd .t0 (step ((fetching 0x8001#16 0x0000#16).setReg .t0 0x0040#16)) =
    some (0x0002#16, 0x0000#16) := by decide

/-- V-I6. -/
theorem test_step_slti : pcAnd .t0 (step (fetching 0xFE09#16 0x0000#16)) =
    some (0x0002#16, 0x0000#16) := by decide

/-- V-I10. -/
theorem test_step_sltui : pcAnd .t0 (step ((fetching 0x8011#16 0x0000#16).setReg .t0 0x007F#16)) =
    some (0x0002#16, 0x0001#16) := by decide

/-- V-I15. -/
theorem test_step_slli : pcAnd .t0 (step ((fetching 0x3E19#16 0x0000#16).setReg .t0 0x0003#16)) =
    some (0x0002#16, 0x8000#16) := by decide

/-- V-I16. -/
theorem test_step_srli : pcAnd .t0 (step ((fetching 0x4819#16 0x0000#16).setReg .t0 0x8234#16)) =
    some (0x0002#16, 0x0823#16) := by decide

/-- V-I18. -/
theorem test_step_srai : pcAnd .a0 (step ((fetching 0x9F99#16 0x0000#16).setReg .a0 0x8000#16)) =
    some (0x0002#16, 0xFFFF#16) := by decide

/-- V-I24. -/
theorem test_step_ori : pcAnd .t0 (step ((fetching 0xE021#16 0x0000#16).setReg .t0 0x0005#16)) =
    some (0x0002#16, 0xFFF5#16) := by decide

/-- V-I26. -/
theorem test_step_andi : pcAnd .t0 (step ((fetching 0xFC29#16 0x0000#16).setReg .t0 0xABCD#16)) =
    some (0x0002#16, 0xABCC#16) := by decide

/-- V-I27. -/
theorem test_step_xori : pcAnd .t0 (step ((fetching 0xFE31#16 0x0000#16).setReg .t0 0x00FF#16)) =
    some (0x0002#16, 0xFF00#16) := by decide

/-- V-I29. -/
theorem test_step_li : pcAnd .t0 (step ((fetching 0x8039#16 0x0000#16).setReg .t0 0xAAAA#16)) =
    some (0x0002#16, 0xFFC0#16) := by decide

/-- V-B18. -/
theorem test_step_beq : pcAnd .t0 (step (fetching 0x8002#16 0x0004#16)) =
    some (0xFFF6#16, 0x0000#16) := by decide

/-- V-B5. -/
theorem test_step_bne : pcAnd .t0 (step (((fetching 0xD20A#16 0x0020#16).setReg .t0 0x0001#16).setReg .ra 0x0002#16)) =
    some (0x001C#16, 0x0001#16) := by decide

/-- V-B19. -/
theorem test_step_bz : pcAnd .t0 (step (fetching 0x7012#16 0xFFFC#16)) =
    some (0x000A#16, 0x0000#16) := by decide

/-- V-B7. -/
theorem test_step_bnz : pcAnd .ra (step ((fetching 0xE05A#16 0x0020#16).setReg .ra 0x0001#16)) =
    some (0x001C#16, 0x0001#16) := by decide

/-- V-B10. -/
theorem test_step_blt : pcAnd .t0 (step (((fetching 0x7222#16 0x0020#16).setReg .t0 0x8000#16).setReg .ra 0x7FFF#16)) =
    some (0x0030#16, 0x8000#16) := by decide

/-- V-B12. -/
theorem test_step_bge : pcAnd .t0 (step (((fetching 0x822A#16 0x0020#16).setReg .t0 0x0005#16).setReg .ra 0x0005#16)) =
    some (0x0012#16, 0x0005#16) := by decide

/-- V-B11. -/
theorem test_step_bltu : pcAnd .t0 (step (((fetching 0x2232#16 0x0020#16).setReg .t0 0x8000#16).setReg .ra 0x7FFF#16)) =
    some (0x0022#16, 0x8000#16) := by decide

/-- V-B14. -/
theorem test_step_bgeu : pcAnd .t0 (step ((fetching 0x223A#16 0x0020#16).setReg .t0 0xFFFF#16)) =
    some (0x0026#16, 0xFFFF#16) := by decide

/-- V-J5. -/
theorem test_step_j : pcAnd .t0 (step (fetching 0x4005#16 0x0100#16)) =
    some (0xFF00#16, 0x0000#16) := by decide

/-- V-J8. -/
theorem test_step_jal : pcAnd .ra (step (fetching 0xFE65#16 0x0020#16)) =
    some (0x0018#16, 0x0022#16) := by decide

/-- V-U3. -/
theorem test_step_lui : pcAnd .s0 (step (fetching 0x54EE#16 0x0000#16)) =
    some (0x0002#16, 0xAA80#16) := by decide

/-- V-U6. -/
theorem test_step_auipc : pcAnd .a1 (step (fetching 0xFFFE#16 0x0100#16)) =
    some (0x0102#16, 0x0080#16) := by decide

/-- V-R27: with one register for both fields the link is the target. -/
theorem test_step_jalr_same_register : pcAnd .ra (step ((fetching 0x8240#16 0x0010#16).setReg .ra 0x0200#16)) =
    some (0x0012#16, 0x0012#16) := by decide

/-- V-B3: not taken, and V-B4. -/
theorem test_step_not_taken : pcAnd .t0 (step ((fetching 0x1012#16 0x0000#16).setReg .t0 0x0001#16)) =
      some (0x0002#16, 0x0001#16) ∧
    pcAnd .t0 (step (((fetching 0x1202#16 0x0020#16).setReg .t0 0x0001#16).setReg .ra 0x0002#16)) =
      some (0x0022#16, 0x0001#16) := by decide

/-- V-S7: the last byte of memory. -/
theorem test_step_sb : bytesAt 0xFFFF (step ((fetching 0x1083#16 0x0000#16).setReg .t0 0x1234#16)) =
    some (0x34#8, 0x00#8) := by decide

/-- V-S8: address 65 536 is not wrapped; the fault stops the run after the `Trace`, with `pc` unchanged. -/
theorem test_step_sb_fault : runOfAnswer (step ((fetching 0x2083#16 0x0000#16).setReg .t0 0x1234#16)) =
    some (0x0000#16, .stopped (.fault (.memoryBounds 65536 1)), [.trace 0x0000#16 0x2083#16]) := by decide

/-- V-S2: little-endian. -/
theorem test_step_sw : bytesAt 0xFFFC (step ((fetching 0xE08B#16 0x0000#16).setReg .t0 0xAAB4#16)) =
    some (0xB4#8, 0xAA#8) := by decide

/-- V-S6: a word at `0xFFFF` writes no byte. -/
theorem test_step_sw_fault : bytesAt 0xFFFF (step ((fetching 0x108B#16 0x0000#16).setReg .t0 0x1234#16)) =
      some (0x00#8, 0x00#8) ∧
    runOfAnswer (step ((fetching 0x108B#16 0x0000#16).setReg .t0 0x1234#16)) =
      some (0x0000#16, .stopped (.fault (.memoryBounds 65535 2)), [.trace 0x0000#16 0x108B#16]) := by decide

/-- V-L1. -/
theorem test_step_lb : pcAnd .s0 (step (withByte 0xFFFC 0xB4#8 (fetching 0xE4C4#16 0x0000#16))) =
    some (0x0002#16, 0xFFB4#16) := by decide

/-- V-L9: address -1; `rd` keeps its value. -/
theorem test_step_lb_fault : pcAnd .a0 (step ((fetching 0xF184#16 0x0000#16).setReg .a0 0x7777#16)) =
      some (0x0000#16, 0x7777#16) ∧
    runOfAnswer (step ((fetching 0xF184#16 0x0000#16).setReg .a0 0x7777#16)) =
      some (0x0000#16, .stopped (.fault (.memoryBounds (-1) 1)), [.trace 0x0000#16 0xF184#16]) := by decide

/-- V-L7: base and destination are one register. -/
theorem test_step_lw : pcAnd .t0 (step (withByte 0x0101 0xAB#8 (withByte 0x0100 0xCD#8
    ((fetching 0x000C#16 0x0000#16).setReg .t0 0x0100#16)))) = some (0x0002#16, 0xABCD#16) := by decide

/-- V-L2. -/
theorem test_step_lbu : pcAnd .s1 (step (withByte 0xFFFD 0xAA#8 (fetching 0xF524#16 0x0000#16))) =
    some (0x0002#16, 0x00AA#16) := by decide

/-- V-Y3, V-Y4: print integer and terminate. -/
theorem test_step_ecall : runOfAnswer (step ((fetching 0x0047#16 0x0000#16).setReg .a0 0x8000#16)) =
      some (0x0002#16, .running, [.trace 0x0000#16 0x0047#16, .ecallOutput (.printInteger (-32768))]) ∧
    runOfAnswer (step (fetching 0x00C7#16 0x0010#16)) =
      some (0x0010#16, .stopped .halt, [.trace 0x0010#16 0x00C7#16, .ecallOutput .terminate]) := by decide

/-- V-Y5, V-Y7, V-Y10: print string, an unterminated string, the largest service. -/
theorem test_step_ecall_string : runOfAnswer (step (withByte 0x0101 0x69#8 (withByte 0x0100 0x48#8
      ((fetching 0x0147#16 0x0000#16).setReg .a0 0x0100#16)))) =
      some (0x0002#16, .running, [.trace 0x0000#16 0x0147#16, .ecallOutput (.printString [0x48#8, 0x69#8])]) ∧
    runOfAnswer (step (withByte 0xFFFF 0x41#8 ((fetching 0x0147#16 0x0010#16).setReg .a0 0xFFFF#16))) =
      some (0x0010#16, .stopped (.fault (.memoryBounds 65536 1)), [.trace 0x0010#16 0x0147#16]) ∧
    runOfAnswer (step (fetching 0xFFC7#16 0x0000#16)) =
      some (0x0002#16, .running, [.trace 0x0000#16 0xFFC7#16, .ecallOutput (.other 1023)]) := by decide

/-- V-R29: an unknown encoding is reported and stepped over. -/
theorem test_step_unknown : runOfAnswer (step (fetching 0x0018#16 0x0010#16)) =
    some (0x0012#16, .running, [.trace 0x0010#16 0x0018#16, .diagnostic 0x0010#16 0x0018#16]) := by decide

/-- R250, R252: core reset keeps memory and the program size. -/
theorem test_coreReset : (((fetching 0x0018#16 0x0010#16).setReg .t0 0x0001#16).stop .halt).coreReset =
    { State.reset with mem := (fetching 0x0018#16 0x0010#16).mem, programSize := 65536 } := by decide

/-! ### Output and assembly text -/

/-- V-Y1, V-Y3: `Print integer: 15`, `Print integer: -32768`; one line feed ends the text (R201). -/
theorem test_text_print_integer : (EcallOutput.printInteger 15).text =
      asciiBytes ['P', 'r', 'i', 'n', 't', ' ', 'i', 'n', 't', 'e', 'g', 'e', 'r', ':', ' ', '1', '5'] ++ [0x0A#8] ∧
    (EcallOutput.printInteger (-32768)).lines =
      [asciiBytes ['P', 'r', 'i', 'n', 't', ' ', 'i', 'n', 't', 'e', 'g', 'e', 'r', ':', ' ', '-', '3', '2', '7', '6', '8']] := by
  decide

/-- V-Y4: the two lines of service 3; V-Y10: `ecall 1023`. -/
theorem test_text_ecall : EcallOutput.terminate.lines = [asciiBytes ['e', 'c', 'a', 'l', 'l', ' ', '3'],
      asciiBytes ['e', 'c', 'a', 'l', 'l', ' ', 't', 'e', 'r', 'm', 'i', 'n', 'a', 't', 'e', ' ', 's', 'i', 'm', 'u', 'l', 'a', 't', 'i', 'o', 'n']] ∧
    (EcallOutput.other 1023).lines = [asciiBytes ['e', 'c', 'a', 'l', 'l', ' ', '1', '0', '2', '3']] := by
  decide

/-- V-Y5: `Print string: Hi`. -/
theorem test_text_print_string : (EcallOutput.printString [0x48#8, 0x69#8]).lines =
    [asciiBytes ['P', 'r', 'i', 'n', 't', ' ', 's', 't', 'r', 'i', 'n', 'g', ':', ' ', 'H', 'i']] := by decide

/-- R70, R71 with the examples of programs P1 to P3 and scenario 4: `add t0, ra`, `sw t0, -2(sp)`, `jal ra, 0x0008`. -/
theorem test_asm_text : asmText 0x0000#16 (.add .t0 .ra) = asciiBytes ['a', 'd', 'd', ' ', 't', '0', ',', ' ', 'r', 'a'] ∧
    asmText 0x0004#16 (.sw .t0 .sp (-2)) =
      asciiBytes ['s', 'w', ' ', 't', '0', ',', ' ', '-', '2', '(', 's', 'p', ')'] ∧
    asmText 0x0002#16 (.jal .ra 3) =
      asciiBytes ['j', 'a', 'l', ' ', 'r', 'a', ',', ' ', '0', 'x', '0', '0', '0', '8'] := by decide

/-- Scenario 4 and P1: `beq t0, t0, 0x0004` adds 2, `bnz t0, 0x0004` at `0x0008` does not. -/
theorem test_asm_targets : asmText 0x0000#16 (.beq .t0 .t0 1) =
      asciiBytes ['b', 'e', 'q', ' ', 't', '0', ',', ' ', 't', '0', ',', ' ', '0', 'x', '0', '0', '0', '4'] ∧
    asmText 0x0008#16 (.bnz .t0 (-2)) =
      asciiBytes ['b', 'n', 'z', ' ', 't', '0', ',', ' ', '0', 'x', '0', '0', '0', '4'] := by decide

/-! ### Witnesses of the statements' hypotheses -/

theorem next_of_nextState {o : Outcome} {t : State} (h : nextState o = some t) : o = .next t := by
  cases o <;> first | exact congrArg _ (Option.some.inj h) | exact nomatch h

/-- The fault of an answer that has one. -/
def faultOf : Outcome → Option Fault
  | .fault f => some f
  | _ => none

theorem fault_of_faultOf {o : Outcome} {f : Fault} (h : faultOf o = some f) : o = .fault f := by
  cases o <;> first | exact congrArg _ (Option.some.inj h) | exact nomatch h

theorem test_witness_EncodeThenDecodeGivesTheInstruction :
    (Instr.addi .t0 (-64)).wellFormed = true ∧ (Instr.jal .a1 255).wellFormed = true := by decide

theorem test_witness_DecodeThenEncodeGivesTheWordButIgnoredFields :
    decodeWord 0x4E00#16 = .ok (.jr .t0) ∧ decodeWord 0xFE65#16 = .ok (.jal .ra (-4)) := by decide

theorem test_witness_DecoderFollowsTheOpcodeMap : decodeWord 0x4E00#16 = .ok (.jr .t0) ∧
    (Instr.jr .a1).rowMatches 0x4E00#16 ∧ (Instr.jr .t0).rowMatches 0x4E00#16 :=
  ⟨by decide, show (0x4E00#16 &&& 0xF03F#16 = 0x4000#16) by decide, show (0x4E00#16 &&& 0xF03F#16 = 0x4000#16) by decide⟩

/-- One unknown word of each family that has any, on both sides of the equivalence. -/
theorem test_witness_UnknownEncodingsAreThoseOfTheTable :
    (decodeWord 0x3000#16 = .error (.unknownEncoding 0x3000#16) ∧ slice 0x3000#16 2 0 = 0 ∧
      slice 0x3000#16 15 12 = 3 ∧ slice 0x3000#16 5 3 = 0) ∧
    (decodeWord 0xE019#16 = .error (.unknownEncoding 0xE019#16) ∧ slice 0xE019#16 2 0 = 1 ∧
      slice 0xE019#16 5 3 = 3 ∧ slice 0xE019#16 15 13 = 7) ∧
    (decodeWord 0x0013#16 = .error (.unknownEncoding 0x0013#16) ∧ slice 0x0013#16 2 0 = 3 ∧ slice 0x0013#16 5 3 = 2) ∧
    (decodeWord 0x002C#16 = .error (.unknownEncoding 0x002C#16) ∧ slice 0x002C#16 2 0 = 4 ∧ slice 0x002C#16 5 3 = 5) ∧
    (decodeWord 0x000F#16 = .error (.unknownEncoding 0x000F#16) ∧ slice 0x000F#16 2 0 = 7 ∧ slice 0x000F#16 5 3 = 1) := by
  decide

/-- The ends of the ranges of R34. -/
theorem test_witness_MemReadChecksBoundsThenReadsLittleEndian :
    memRead8 [(65535, 0x80#8)] (-1) = .error (.memoryBounds (-1) 1) ∧
    memRead8 [(65535, 0x80#8)] 65536 = .error (.memoryBounds 65536 1) ∧
    memRead8 [(65535, 0x80#8)] 65535 = .ok 0x80#8 ∧ memRead8 [(65535, 0x80#8)] 0 = .ok 0x00#8 ∧
    memRead16 [(65535, 0x80#8)] 65535 = .error (.memoryBounds 65535 2) ∧
    memRead16 [(65535, 0x80#8)] (-1) = .error (.memoryBounds (-1) 2) ∧
    memRead16 [(65535, 0x80#8)] 65534 = .ok 0x8000#16 ∧ memRead16 [(65535, 0x80#8)] 0 = .ok 0x0000#16 := by decide

/-- The ends of the ranges of R35; a zero byte is not listed. -/
theorem test_witness_MemWriteChecksBoundsThenWritesItsBytes :
    memWrite8 [] (-1) 0x1234#16 = .error (.memoryBounds (-1) 1) ∧
    memWrite8 [] 65536 0x1234#16 = .error (.memoryBounds 65536 1) ∧
    memWrite8 [] 65535 0x1234#16 = .ok [(65535, 0x34#8)] ∧ memWrite8 [(0, 0x01#8)] 0 0x1200#16 = .ok [] ∧
    memWrite16 [] 65535 0x1234#16 = .error (.memoryBounds 65535 2) ∧
    memWrite16 [] (-1) 0x1234#16 = .error (.memoryBounds (-1) 2) ∧
    memWrite16 [] 65534 0x1234#16 = .ok [(65534, 0x34#8), (65535, 0x12#8)] ∧
    memWrite16 [] 0 0x1200#16 = .ok [(1, 0x12#8)] := by decide

theorem test_witness_WordMemoryIsLittleEndianAndReadsBack :
    ((0 : Int) ≤ 0xFFFE ∧ (0xFFFE : Int) ≤ 0xFFFE) ∧ ((0 : Int) ≤ 0 ∧ (0 : Int) ≤ 0xFFFE) := by decide

/-- The empty image and the largest image. -/
theorem test_witness_LoadPlacesTheImageAtAddressZero :
    ([] : List Byte).length ≤ 65536 ∧ (List.replicate 65536 (0x01#8 : Byte)).length ≤ 65536 :=
  ⟨Nat.zero_le _, Nat.le_of_eq List.length_replicate⟩

/-- A run of the image `C7 00` (`ecall 3`): the loaded state meets the invariant and its step answers a next state. -/
theorem test_witness_EveryStepKeepsTheInvariant :
    Inv (State.load [0xC7#8, 0x00#8]) ∧
    runOfAnswer (step (State.load [0xC7#8, 0x00#8])) =
      some (0x0000#16, .stopped .halt, [.trace 0x0000#16 0x00C7#16, .ecallOutput .terminate]) :=
  ⟨⟨by decide, by decide, by decide, by decide, nofun, nofun, nofun, nofun⟩, by decide⟩

/-- V-R1 for an instruction that answers next. -/
theorem test_witness_StepRunsTheDecodedInstruction_next :
    let s := fetching 0x0200#16 0x0000#16
    s.status = .running ∧ s.pc.toNat < s.programSize ∧ s.icount < 10000 ∧
    memRead16 s.mem s.pc.toNat = .ok 0x0200#16 ∧ decodeWord 0x0200#16 = .ok (.add .t0 .ra) ∧
    exec (.add .t0 .ra) (beginInstruction 0x0200#16 s) = .next (beginInstruction 0x0200#16 s).advance :=
  ⟨by decide, by decide, by decide, by decide, by decide, rfl⟩

/-- V-S6 for an instruction that faults; the witness of `FaultingInstructionStopsTheRunWithoutEffect` too. -/
theorem test_witness_StepRunsTheDecodedInstruction_fault :
    let s := fetching 0x108B#16 0x0000#16
    s.status = .running ∧ s.pc.toNat < s.programSize ∧ s.icount < 10000 ∧
    memRead16 s.mem s.pc.toNat = .ok 0x108B#16 ∧ decodeWord 0x108B#16 = .ok (.sw .t0 .sp 1) ∧
    exec (.sw .t0 .sp 1) (beginInstruction 0x108B#16 s) = .fault (.memoryBounds 65535 2) :=
  ⟨by decide, by decide, by decide, by decide, by decide, fault_of_faultOf (by decide)⟩

theorem test_witness_FaultingInstructionStopsTheRunWithoutEffect :
    let s := fetching 0x2083#16 0x0000#16
    s.status = .running ∧ s.pc.toNat < s.programSize ∧ s.icount < 10000 ∧
    memRead16 s.mem s.pc.toNat = .ok 0x2083#16 ∧ decodeWord 0x2083#16 = .ok (.sb .t0 .sp 2) ∧
    exec (.sb .t0 .sp 2) (beginInstruction 0x2083#16 s) = .fault (.memoryBounds 65536 1) :=
  ⟨by decide, by decide, by decide, by decide, by decide, fault_of_faultOf (by decide)⟩

theorem test_witness_StoppedCoreKeepsItsState : (State.reset.stop .halt).status = .stopped .halt := rfl

/-- Clause 1 at `pc = program_size`; clause 2 at `pc = program_size - 1` and `icount = 10000`. -/
theorem test_witness_StopTestsComeInOrder :
    (State.reset.status = .running ∧ State.reset.programSize ≤ State.reset.pc.toNat) ∧
    (let s : State := { State.reset with programSize := 1, icount := 10000 }
     s.status = .running ∧ s.pc.toNat < s.programSize ∧ 10000 ≤ s.icount) := by decide

theorem test_witness_FetchAtTheLastByteFaultsBeforeTheTrace :
    let s : State := { State.reset with pc := 0xFFFF#16, programSize := 65536, icount := 9999 }
    s.status = .running ∧ s.pc = 0xFFFF#16 ∧ s.pc.toNat < s.programSize ∧ s.icount < 10000 := by decide

/-- V-R29. -/
theorem test_witness_UnknownEncodingIsReportedAndSteppedOver :
    let s := fetching 0x0018#16 0x0010#16
    s.status = .running ∧ s.pc.toNat < s.programSize ∧ s.icount < 10000 ∧
    memRead16 s.mem s.pc.toNat = .ok 0x0018#16 ∧ decodeWord 0x0018#16 = .error (.unknownEncoding 0x0018#16) := by decide

/-- A step that fetches and one that does not. -/
theorem test_witness_EventsAreAppendedTraceFirst :
    step State.reset = .next (State.reset.stop .endOfProgram) ∧
    ∃ t, step (fetching 0x0200#16 0x0000#16) = .next t ∧ t.events = [.trace 0x0000#16 0x0200#16] :=
  ⟨rfl, _, rfl, rfl⟩

/-- A form that stores and one that does not. -/
theorem test_witness_OnlyStoresChangeMemoryAndOnlyTheirBytes :
    exec (.add .t0 .ra) State.reset = .next State.reset.advance ∧ storedBytes State.reset (.add .t0 .ra) = none ∧
    exec (.sb .sp .sp 1) State.reset = .next (State.reset.setMem [(65535, 0xFE#8)]).advance ∧
    storedBytes State.reset (.sb .sp .sp 1) = some (65535, 1) :=
  ⟨next_of_nextState (by decide), rfl, next_of_nextState (by decide), by decide⟩

theorem test_witness_OnlyTheDestinationRegisterChanges :
    exec (.mv .t0 .sp) State.reset = .next (State.reset.setReg .t0 0xFFFE#16).advance := rfl

theorem test_witness_NoInstructionChangesSizeOrCount :
    exec (.mv .t0 .sp) State.reset = .next (State.reset.setReg .t0 0xFFFE#16).advance := rfl

/-- Both clauses: `ecall 3`, and another instruction. -/
theorem test_witness_OnlyEcallThreeHalts :
    exec (.ecall 3) State.reset = .next (State.reset.emit (.ecallOutput .terminate)).haltRun ∧
    exec (.ecall 2) State.reset = .next (State.reset.emit (.ecallOutput (.other 2))).advance ∧ Instr.ecall 2 ≠ .ecall 3 :=
  ⟨rfl, rfl, by decide⟩

/-- A data access and the string read. -/
theorem test_witness_OnlyMemoryAccessesFaultAndOnlyOutOfBounds :
    exec (.lb .a0 .t0 (-1)) State.reset = .fault (.memoryBounds (-1) 1) ∧
    exec (.ecall 5) ((withByte 0xFFFF 0x41#8 State.reset).setReg .a0 0xFFFF#16) = .fault (.memoryBounds 65536 1) :=
  ⟨fault_of_faultOf (by decide), fault_of_faultOf (by decide)⟩

theorem test_witness_OnlyRegisterJumpsChangeTheParityOfPc :
    jumpsThroughRegister (.j 255) = false ∧ exec (.j 255) State.reset = .next (State.reset.setPc 0x01FE#16) :=
  ⟨rfl, rfl⟩

/-- At the lowest and at the highest address. -/
theorem test_witness_StoreIntoTheNextWordIsFetchedNext :
    (effectiveAddress .t0 2 State.reset = State.reset.pc.toNat + 2 ∧ State.reset.pc.toNat + 3 ≤ 65535) ∧
    (let s := State.reset.setPc 0xFFFC#16
     effectiveAddress .sp 0 s = s.pc.toNat + 2 ∧ s.pc.toNat + 3 ≤ 65535) := by decide

/-- The ends of the immediate's range: for `slti`, `sltui`, `ori`, `andi`, `xori`. -/
theorem test_witness_signed_immediates :
    ((-64 : Int) ≤ -64 ∧ (-64 : Int) ≤ 63) ∧ ((-64 : Int) ≤ 63 ∧ (63 : Int) ≤ 63) := by decide

/-- Both clauses at the ends of memory, one byte: for `sb`, `lb`, `lbu`. -/
theorem test_witness_byte_accesses :
    effectiveAddress .t0 0 State.reset = 0 ∧ effectiveAddress .sp 1 State.reset = 65535 ∧
    effectiveAddress .t0 (-1) State.reset = -1 ∧ effectiveAddress .sp 2 State.reset = 65536 ∧
    exec (.sb .sp .t0 0) State.reset = .next (State.reset.setMem [(0, 0xFE#8)]).advance ∧
    exec (.sb .sp .sp 2) State.reset = .fault (.memoryBounds 65536 1) ∧
    exec (.lb .t1 .sp 1) State.reset = .next (State.reset.setReg .t1 0x0000#16).advance ∧
    exec (.lb .t1 .sp 2) State.reset = .fault (.memoryBounds 65536 1) ∧
    exec (.lbu .t1 .sp 1) State.reset = .next (State.reset.setReg .t1 0x0000#16).advance ∧
    exec (.lbu .t1 .t0 (-1)) State.reset = .fault (.memoryBounds (-1) 1) :=
  ⟨by decide, by decide, by decide, by decide, next_of_nextState (by decide), fault_of_faultOf (by decide),
    next_of_nextState (by decide), fault_of_faultOf (by decide), next_of_nextState (by decide), fault_of_faultOf (by decide)⟩

/-- Both clauses at the ends of memory, one word: for `sw`, `lw`. -/
theorem test_witness_word_accesses :
    effectiveAddress .t0 0 State.reset = 0 ∧ effectiveAddress .sp 0 State.reset = 65534 ∧
    effectiveAddress .t0 (-1) State.reset = -1 ∧ effectiveAddress .sp 1 State.reset = 65535 ∧
    exec (.sw .sp .sp 0) State.reset = .next (State.reset.setMem [(65534, 0xFE#8), (65535, 0xFF#8)]).advance ∧
    exec (.sw .sp .sp 1) State.reset = .fault (.memoryBounds 65535 2) ∧
    exec (.lw .t1 .sp 0) State.reset = .next (State.reset.setReg .t1 0x0000#16).advance ∧
    exec (.lw .t1 .t0 (-1)) State.reset = .fault (.memoryBounds (-1) 2) :=
  ⟨by decide, by decide, by decide, by decide, next_of_nextState (by decide), fault_of_faultOf (by decide),
    next_of_nextState (by decide), fault_of_faultOf (by decide)⟩

/-- A terminated string, an unterminated one, and service numbers beside the three special ones. -/
theorem test_witness_EcallPerformsItsService :
    readString State.reset.mem (State.reset.reg .a0) = .ok [] ∧
    (let s := (withByte 0xFFFF 0x41#8 State.reset).setReg .a0 0xFFFF#16
     readString s.mem (s.reg .a0) = .error (.memoryBounds 65536 1)) ∧
    ((0 : Nat) ≠ 1 ∧ (0 : Nat) ≠ 3 ∧ (0 : Nat) ≠ 5) ∧ ((1023 : Nat) ≠ 1 ∧ (1023 : Nat) ≠ 3 ∧ (1023 : Nat) ≠ 5) := by
  decide

/-- `"A"` ends at the last byte of memory; from there on the empty string; and a byte that is never followed by a zero. -/
theorem test_witness_PrintStringReadsUpToTheZeroByte :
    (let s := withByte 0xFFFE 0x41#8 State.reset
     (0xFFFE#16 : Word).toNat + 1 ≤ 65535 ∧ s.byteAt ((0xFFFE#16 : Word).toNat + 1) = 0#8 ∧
       (∀ k < 1, s.byteAt ((0xFFFE#16 : Word).toNat + k) ≠ 0#8)) ∧
    ((0xFFFF#16 : Word).toNat + 0 ≤ 65535 ∧ State.reset.byteAt ((0xFFFF#16 : Word).toNat + 0) = 0#8) ∧
    (∀ a : Nat, (0xFFFF#16 : Word).toNat ≤ a → a ≤ 65535 → (withByte 0xFFFF 0x41#8 State.reset).byteAt a ≠ 0#8) := by
  refine ⟨by decide, by decide, ?_⟩
  intro a h1 h2
  obtain rfl : a = 65535 := Nat.le_antisymm h2 h1
  decide

theorem test_witness_DecimalTextDenotesTheNumber :
    decimalBytes 0 = [48#8] ∧ decimalBytes 10 = [49#8, 48#8] ∧ ((0 : Int) ≤ 0) ∧ ((-1 : Int) < 0) ∧
    decimalIntBytes (-1) = [45#8, 49#8] := by decide

end Sys2Proof.Tests
end

section
/-! PROOFS. Bounds-checked memory access (20_memory.md): the rule of each access inside and outside memory, then R31 and R34. -/

namespace Sys2Proof.Machine

/-! ### The bounds check over the integers -/

/-- R34 and R35 write the refusal as `a < 0` or `a + n - 1 > 65535`; here for a width `n` written `k + 1`. -/
theorem inBounds_eq_false_iff (a : Int) (k : Nat) : inBounds a (k + 1) = false ↔ a < 0 ∨ a + k > 65535 := by
  rw [← Bool.not_eq_true, inBounds_iff]
  omega

theorem inBounds_eq_true_iff (a : Int) (k : Nat) : inBounds a (k + 1) = true ↔ 0 ≤ a ∧ a + k ≤ 65535 := by
  rw [inBounds_iff]
  omega

/-! ### One rule per access and answer of the check -/

theorem memRead8_of_inBounds {a : Int} (m : Memory) (h : inBounds a 1 = true) : memRead8 m a = .ok (m.get a.toNat) := by
  rw [memRead8_eq, if_pos h]

theorem memRead8_of_not_inBounds {a : Int} (m : Memory) (h : inBounds a 1 = false) :
    memRead8 m a = .error (.memoryBounds a 1) := by
  rw [memRead8_eq, if_neg (Bool.eq_false_iff.mp h)]

theorem memRead16_of_inBounds {a : Int} (m : Memory) (h : inBounds a 2 = true) :
    memRead16 m a = .ok (wordOfBytes (m.get a.toNat) (m.get (a.toNat + 1))) := by
  rw [memRead16_eq, if_pos h]

theorem memRead16_of_not_inBounds {a : Int} (m : Memory) (h : inBounds a 2 = false) :
    memRead16 m a = .error (.memoryBounds a 2) := by
  rw [memRead16_eq, if_neg (Bool.eq_false_iff.mp h)]

theorem memWrite16_of_inBounds {a : Int} (m : Memory) (v : Word) (h : inBounds a 2 = true) :
    memWrite16 m a v = .ok ((m.set a.toNat (lowByte v)).set (a.toNat + 1) (highByte v)) := by
  rw [memWrite16, if_pos h]

/-! ### Words in memory are little-endian -/

/-- The value of a word read, for both obligations: low byte first (R31). -/
theorem memRead16_littleEndian {a : Int} (m : Memory) (h : inBounds a 2 = true) :
    ∃ u, memRead16 m a = .ok u ∧ u.toNat = (m.get a.toNat).toNat + 256 * (m.get (a.toNat + 1)).toNat :=
  ⟨_, memRead16_of_inBounds m h, wordOfBytes_toNat _ _⟩

/-- The write of the high byte at `a + 1` leaves the low byte at `a`. -/
theorem memWrite16_get_low {m m' : Memory} {a : Int} {v : Word} (h : memWrite16 m a v = .ok m') :
    m'.get a.toNat = lowByte v := by
  obtain ⟨-, rfl⟩ := memWrite16_ok h
  rw [Memory.get_set_other _ _ (Nat.ne_of_lt (Nat.lt_succ_self _)), Memory.get_set_same]

theorem memWrite16_get_high {m m' : Memory} {a : Int} {v : Word} (h : memWrite16 m a v = .ok m') :
    m'.get (a.toNat + 1) = highByte v := by
  obtain ⟨-, rfl⟩ := memWrite16_ok h
  exact Memory.get_set_same _ _ _

/-- R31's read-back law: after a word write that completes, the word read at the same address is the word written. -/
theorem memRead16_memWrite16 {m m' : Memory} {a : Int} {v : Word} (h : memWrite16 m a v = .ok m') :
    memRead16 m' a = .ok v := by
  obtain ⟨hin, -⟩ := memWrite16_ok h
  rw [memRead16_of_inBounds m' hin, memWrite16_get_low h, memWrite16_get_high h, wordOfBytes_low_high]

/-! ### The statements -/

/-- Settles O9: a word write at `a <= 0xFFFE` is in bounds, places the two bytes, and the bytes put together are the word again. -/
theorem wordMemoryIsLittleEndianAndReadsBack : Obligations.WordMemoryIsLittleEndianAndReadsBack := by
  intro m a v h0 h1
  have hin : inBounds a 2 = true := (inBounds_eq_true_iff a 1).mpr ⟨h0, by omega⟩
  have hw := memWrite16_of_inBounds m v hin
  refine ⟨⟨_, hw, ?low, ?high, memRead16_memWrite16 hw⟩, memRead16_littleEndian m hin⟩
  case low => rw [memWrite16_get_low hw, lowByte_toNat]
  case high => rw [memWrite16_get_high hw, highByte_toNat]

/-- Settles O7: each clause is the rule of its width and of its answer of the bounds check. -/
theorem memReadChecksBoundsThenReadsLittleEndian : Obligations.MemReadChecksBoundsThenReadsLittleEndian := by
  intro m a
  refine ⟨fun h => ?byteOut, fun h => ?byteIn, fun h => ?wordOut, fun h => ?wordIn⟩
  case byteOut => exact memRead8_of_not_inBounds m ((inBounds_eq_false_iff a 0).mpr (by omega))
  case byteIn => exact memRead8_of_inBounds m ((inBounds_eq_true_iff a 0).mpr (by omega))
  case wordOut => exact memRead16_of_not_inBounds m ((inBounds_eq_false_iff a 1).mpr h)
  case wordIn => exact memRead16_littleEndian m ((inBounds_eq_true_iff a 1).mpr h)

end Sys2Proof.Machine
end

section
/-! PROOFS. R-type instructions on a pair of registers (41_r_type.md): the decoder's rule for such a row, the meaning of each
instruction as the arithmetic of its rule, then R100 to R102, R104, R105 and R110. -/

namespace Sys2Proof.Safety

open Sys2Proof.Machine

/-! ### Decoding a row with two register fields -/

theorem decodeFields_of_opField_zero {w : Word} (h : opField w = 0#3) : decodeFields w = decodeR w := by
  simp [decodeFields, h]

/-- A row of the R format whose operands are its two register fields: what is left to say is which instruction `decodeR` reads
from the `funct4` and `funct3` of the row's pattern. -/
theorem encodedAs_registerPair {pat : Word} (c : Reg → Reg → Instr) (hop : pat.extractLsb' 0 3 = 0#3)
    (hrow : ∀ w, funct4Field w = pat.extractLsb' 12 4 → funct3Field w = pat.extractLsb' 3 3 →
      decodeR w = some (c (reg86 w) (reg119 w))) :
    encodedAs 0xF03F#16 pat (fun w => c (regAt w 6) (regAt w 9)) :=
  encodedAs_r fun w h0 h3 h4 => by
    rw [decodeFields_of_opField_zero (h0.trans hop), hrow w h4 h3, regAt_six, regAt_nine]

/-! ### The comparison as 1 or 0 -/

theorem aluLTS_eq_ite (a b : Word) : aluLTS a b = if signed a < signed b then 1#16 else 0#16 := by
  simp [aluLTS, boolWord, lessSigned]

/-! ### The meaning of each instruction as the arithmetic of its rule -/

theorem exec_add_eq (rd rs2 : Reg) (s : State) :
    exec (.add rd rs2) s = writeResult rd (u16 ((s.reg rd).toNat + (s.reg rs2).toNat)) s := by
  rw [← aluAdd_eq_u16]; rfl

theorem exec_sub_eq (rd rs2 : Reg) (s : State) :
    exec (.sub rd rs2) s = writeResult rd (u16 ((s.reg rd).toNat - (s.reg rs2).toNat)) s := by
  rw [← aluSub_eq_u16]; rfl

theorem exec_slt_eq (rd rs2 : Reg) (s : State) :
    exec (.slt rd rs2) s = writeResult rd (if signed (s.reg rd) < signed (s.reg rs2) then 1#16 else 0#16) s := by
  rw [← aluLTS_eq_ite]; rfl

theorem exec_sll_eq (rd rs2 : Reg) (s : State) :
    exec (.sll rd rs2) s = writeResult rd (u16 ((s.reg rd).toNat * 2 ^ ((s.reg rs2).toNat % 16))) s := by
  rw [← shiftAmount_eq, ← aluSll_eq_u16]; rfl

theorem exec_srl_eq (rd rs2 : Reg) (s : State) :
    exec (.srl rd rs2) s = writeResult rd (u16 ((s.reg rd).toNat / 2 ^ ((s.reg rs2).toNat % 16))) s := by
  rw [← shiftAmount_eq, ← aluSrl_eq_u16]; rfl

theorem exec_mv_eq (rd rs2 : Reg) (s : State) : exec (.mv rd rs2) s = writeResult rd (s.reg rs2) s := rfl

/-! ### The statements -/

/-- Settles O30: R100's row and its sum, which `writeResult` puts into the destination alone. -/
theorem addWritesTheWrappedSum : Obligations.AddWritesTheWrappedSum :=
  ⟨encodedAs_registerPair .add rfl fun w h4 h3 => by simp [decodeR, h4, h3],
    fun rd rs2 s => completesWriting_of_writeResult (exec_add_eq rd rs2 s)⟩

/-- Settles O31: R101's row and its difference, the destination's old value on the left. -/
theorem subWritesTheWrappedDifference : Obligations.SubWritesTheWrappedDifference :=
  ⟨encodedAs_registerPair .sub rfl fun w h4 h3 => by simp [decodeR, h4, h3],
    fun rd rs2 s => completesWriting_of_writeResult (exec_sub_eq rd rs2 s)⟩

/-- Settles O32: R102's row and the comparison `LTS` of R92, written out as 1 or 0. -/
theorem sltWritesTheSignedComparison : Obligations.SltWritesTheSignedComparison :=
  ⟨encodedAs_registerPair .slt rfl fun w h4 h3 => by simp [decodeR, h4, h3],
    fun rd rs2 s => completesWriting_of_writeResult (exec_slt_eq rd rs2 s)⟩

/-- Settles O34: R104's row and its product; the mask `0xF` of the amount is the residue modulo 16. -/
theorem sllShiftsLeftByTheLowFourBits : Obligations.SllShiftsLeftByTheLowFourBits :=
  ⟨encodedAs_registerPair .sll rfl fun w h4 h3 => by simp [decodeR, h4, h3],
    fun rd rs2 s => completesWriting_of_writeResult (exec_sll_eq rd rs2 s)⟩

/-- Settles O35: R105's row and its quotient, with the amount of R104. -/
theorem srlShiftsRightByTheLowFourBits : Obligations.SrlShiftsRightByTheLowFourBits :=
  ⟨encodedAs_registerPair .srl rfl fun w h4 h3 => by simp [decodeR, h4, h3],
    fun rd rs2 s => completesWriting_of_writeResult (exec_srl_eq rd rs2 s)⟩

/-- Settles O38: R110's row and the copy. -/
theorem mvCopiesTheRegister : Obligations.MvCopiesTheRegister :=
  ⟨encodedAs_registerPair .mv rfl fun w h4 h3 => by simp [decodeR, h4, h3],
    fun rd rs2 s => completesWriting_of_writeResult (exec_mv_eq rd rs2 s)⟩

end Sys2Proof.Safety
end

section
/-! PROOFS. I-type instructions (42_i_type.md): the decoder's rule for a row with a signed immediate and for a row of the shift group,
the meaning of each instruction as the arithmetic of its rule, then R120, R123 to R125 and R129. -/

namespace Sys2Proof.Safety

open Sys2Proof.Machine

/-! ### Decoding a row of the I format -/

theorem decodeFields_of_opField_one {w : Word} (h : opField w = 1#3) : decodeFields w = decodeI w := by
  simp [decodeFields, h]

theorem decodeI_of_funct3Field_three {w : Word} (h : funct3Field w = 3#3) : decodeI w = decodeShift w := by
  simp [decodeI, h]

/-- A row of the I format whose operands are its register and its sign-extended immediate (R61): what is left to say is which
instruction `decodeI` reads from the `funct3` of the row's pattern. -/
theorem encodedAs_signedImmediate {pat : Word} (c : Reg → Int → Instr) (hop : pat.extractLsb' 0 3 = 1#3)
    (hrow : ∀ w, funct3Field w = pat.extractLsb' 3 3 → decodeI w = some (c (reg86 w) (simmField w))) :
    encodedAs 0x003F#16 pat (fun w => c (regAt w 6) (sext 7 (slice w 15 9))) :=
  encodedAs_funct3 fun w h0 h3 => by
    rw [decodeFields_of_opField_one (h0.trans hop), hrow w h3, regAt_six, sext_seven]

/-- A row of the shift group (R62): what is left to say is which instruction `decodeShift` reads from the `shsel` of the row's
pattern. -/
theorem encodedAs_shiftAmount {pat : Word} (c : Reg → Nat → Instr) (hop : pat.extractLsb' 0 3 = 1#3)
    (hgroup : pat.extractLsb' 3 3 = 3#3)
    (hrow : ∀ w, shselField w = pat.extractLsb' 13 3 → decodeShift w = some (c (reg86 w) (shamtField w))) :
    encodedAs 0xE03F#16 pat (fun w => c (regAt w 6) (slice w 12 9)) :=
  encodedAs_shift fun w h0 h3 hsel => by
    rw [decodeFields_of_opField_one (h0.trans hop), decodeI_of_funct3Field_three (h3.trans hgroup), hrow w hsel, regAt_six,
      slice_shamt]

/-! ### The sum with an immediate -/

/-- Adding the immediate's word adds the signed immediate: `u16` is additive, and the word of `a`'s number is `a`. -/
theorem aluAdd_immOperand_eq_u16 (a : Word) (simm : Int) : aluAdd a (immOperand simm) = u16 (a.toNat + simm) := by
  simp [aluAdd, immOperand, u16, BitVec.ofInt_add]

/-! ### The meaning of each instruction as the arithmetic of its rule -/

theorem exec_addi_eq (rd : Reg) (simm : Int) (s : State) :
    exec (.addi rd simm) s = writeResult rd (u16 ((s.reg rd).toNat + simm)) s := by
  rw [← aluAdd_immOperand_eq_u16]; rfl

theorem exec_slli_eq (rd : Reg) (shamt : Nat) (s : State) :
    exec (.slli rd shamt) s = writeResult rd (u16 ((s.reg rd).toNat * 2 ^ shamt)) s := by
  rw [← aluSll_eq_u16]; rfl

theorem exec_srli_eq (rd : Reg) (shamt : Nat) (s : State) :
    exec (.srli rd shamt) s = writeResult rd (u16 ((s.reg rd).toNat / 2 ^ shamt)) s := by
  rw [← aluSrl_eq_u16]; rfl

theorem exec_srai_eq (rd : Reg) (shamt : Nat) (s : State) :
    exec (.srai rd shamt) s = writeResult rd (u16 (Int.fdiv (signed (s.reg rd)) (2 ^ shamt))) s := by
  rw [← aluSra_eq_u16]; rfl

theorem exec_li_eq (rd : Reg) (simm : Int) (s : State) : exec (.li rd simm) s = writeResult rd (u16 simm) s := rfl

/-! ### The statements -/

/-- Settles O41: R120's row, and its sum over the integers, which `writeResult` puts into the destination alone. -/
theorem addiWritesTheWrappedSum : Obligations.AddiWritesTheWrappedSum :=
  ⟨encodedAs_signedImmediate .addi rfl fun w h3 => by simp [decodeI, h3],
    fun rd simm s => completesWriting_of_writeResult (exec_addi_eq rd simm s)⟩

/-- Settles O44: the three rows of the shift group, told apart by `shsel`, and the product, the quotient and the signed quotient of
R123 to R125. -/
theorem immediateShiftsShiftByShamt : Obligations.ImmediateShiftsShiftByShamt := by
  refine ⟨?slliRow, ?srliRow, ?sraiRow, fun rd shamt s => ⟨?slli, ?srli, ?srai⟩⟩
  case slliRow => exact encodedAs_shiftAmount .slli rfl rfl fun w hsel => by simp [decodeShift, hsel]
  case srliRow => exact encodedAs_shiftAmount .srli rfl rfl fun w hsel => by simp [decodeShift, hsel]
  case sraiRow => exact encodedAs_shiftAmount .srai rfl rfl fun w hsel => by simp [decodeShift, hsel]
  case slli => exact completesWriting_of_writeResult (exec_slli_eq rd shamt s)
  case srli => exact completesWriting_of_writeResult (exec_srli_eq rd shamt s)
  case srai => exact completesWriting_of_writeResult (exec_srai_eq rd shamt s)

/-- Settles O46: R129's row, and the immediate's word as the result, whatever the register held. -/
theorem liLoadsTheImmediate : Obligations.LiLoadsTheImmediate :=
  ⟨encodedAs_signedImmediate .li rfl fun w h3 => by simp [decodeI, h3],
    fun rd simm s => completesWriting_of_writeResult (exec_li_eq rd simm s)⟩

end Sys2Proof.Safety
end

section
/-! PROOFS. J-type instructions (46_j_type.md): the decoder's rule for the row of `jal`, the shape that writes a link and jumps, then
R182. -/

namespace Sys2Proof.Safety

open Sys2Proof.Machine

/-! ### Decoding a row of the J format -/

theorem decodeFields_of_opField_five {w : Word} (h : opField w = 5#3) : decodeFields w = decodeJ w := by
  simp [decodeFields, h]

theorem decodeJ_of_fField_one {w : Word} (h : fField w = 1#1) : decodeJ w = some (.jal (reg86 w) (imm9Field w).toInt) := by
  simp [decodeJ, h]

/-- The row of `jal`: `op` = 101 and `f` = 1 (R60 row 38). -/
theorem encodedAs_jal : encodedAs 0x8007#16 0x8005#16 (fun w => .jal (regAt w 6) (sext 9 (imm9 w))) :=
  encodedAs_f fun w h0 hf => by
    rw [decodeFields_of_opField_five h0, decodeJ_of_fField_one hf, regAt_six, sext_nine]

/-! ### The shape that writes a link and jumps -/

theorem sameRegistersBut_setReg_setPc (rd : Reg) (v t : Word) (s : State) :
    sameRegistersBut (some rd) s ((s.setReg rd v).setPc t) := by
  intro r hr
  have hne : r ≠ rd := fun e => hr (congrArg some e.symm)
  rw [State.reg_setPc, State.reg_setReg_other s v hne]

/-- An instruction that writes the address of its successor to `rd` and sets `pc` completes with that link, and nothing else
changes. -/
theorem linksAndJumps_of_setReg_setPc {i : Instr} {rd : Reg} {target : Word} {s : State}
    (h : exec i s = .next ((s.setReg rd s.nextPc).setPc target)) :
    ∃ t, exec i s = .next t ∧ t.reg rd = u16 (s.pc.toNat + 2) ∧ t.pc = target ∧
      sameRegistersBut (some rd) s t ∧ sameMemory s t ∧ sameRun s t := by
  refine ⟨_, h, ?link, State.setPc_pc _ _, sameRegistersBut_setReg_setPc rd _ _ s, ?memory, ?run⟩
  case link => rw [State.reg_setPc, State.reg_setReg_same, nextPc_eq_u16]
  case memory => intro a; rw [State.byteAt_setPc, State.byteAt_setReg]
  case run => simp [sameRun]

theorem exec_jal_eq (rd : Reg) (jimm : Int) (s : State) :
    exec (.jal rd jimm) s = .next ((s.setReg rd s.nextPc).setPc (u16 (s.pc.toNat + 2 * jimm))) := rfl

/-! ### The statement -/

/-- Settles O55: the row of `jal`, and the link and the target, both formed from the `pc` before the register is written. -/
theorem jalLinksAndJumps : Obligations.JalLinksAndJumps :=
  ⟨encodedAs_jal, fun rd jimm s => linksAndJumps_of_setReg_setPc (exec_jal_eq rd jimm s)⟩

end Sys2Proof.Safety
end

section
/-! PROOFS. U-type instructions (47_u_type.md): the decoder's rule for a row with an unsigned 9-bit immediate, the upper constant as a
product, then R191 and R192. -/

namespace Sys2Proof.Safety

open Sys2Proof.Machine

/-! ### Decoding a row of the U format -/

theorem decodeFields_of_opField_six {w : Word} (h : opField w = 6#3) : decodeFields w = decodeU w := by
  simp [decodeFields, h]

/-- A row of the U format whose operands are its register and its unsigned immediate (R66): what is left to say is which
instruction `decodeU` reads from the `f` of the row's pattern. -/
theorem encodedAs_unsignedImmediate {pat : Word} (c : Reg → Nat → Instr) (hop : pat.extractLsb' 0 3 = 6#3)
    (hrow : ∀ w, fField w = pat.extractLsb' 15 1 → decodeU w = some (c (reg86 w) (imm9Field w).toNat)) :
    encodedAs 0x8007#16 pat (fun w => c (regAt w 6) (imm9 w)) :=
  encodedAs_f fun w h0 hf => by
    rw [decodeFields_of_opField_six (h0.trans hop), hrow w hf, regAt_six, imm9_eq]

/-! ### The meaning of each instruction as the arithmetic of its rule -/

theorem upperConstant_eq_u16 (uimm9 : Nat) : upperConstant uimm9 = u16 (uimm9 * 2 ^ 7) := rfl

theorem exec_lui_eq (rd : Reg) (uimm9 : Nat) (s : State) :
    exec (.lui rd uimm9) s = writeResult rd (u16 (uimm9 * 2 ^ 7)) s := by
  rw [← upperConstant_eq_u16]; rfl

/-- The sum of `auipc` is the wrapped sum of a word and an integer, as for `addi`, with `pc` as the word. -/
theorem exec_auipc_eq (rd : Reg) (uimm9 : Nat) (s : State) :
    exec (.auipc rd uimm9) s = writeResult rd (u16 (s.pc.toNat + uimm9 * 2 ^ 7)) s := by
  rw [← aluAdd_immOperand_eq_u16, immOperand, ← upperConstant_eq_u16]; rfl

/-! ### The statements -/

/-- Settles O56: R191's row, and the upper constant as the result, whatever the register held. -/
theorem luiLoadsTheUpperConstant : Obligations.LuiLoadsTheUpperConstant :=
  ⟨encodedAs_unsignedImmediate .lui rfl fun w hf => by simp [decodeU, hf],
    fun rd uimm9 s => completesWriting_of_writeResult (exec_lui_eq rd uimm9 s)⟩

/-- Settles O57: R192's row, and the sum formed from the `pc` of the `auipc` itself, before it advances. -/
theorem auipcAddsTheUpperConstantToPc : Obligations.AuipcAddsTheUpperConstantToPc :=
  ⟨encodedAs_unsignedImmediate .auipc rfl fun w hf => by simp [decodeU, hf],
    fun rd uimm9 s => completesWriting_of_writeResult (exec_auipc_eq rd uimm9 s)⟩

end Sys2Proof.Safety
end

section
/-! PROOFS. Decoding and encoding are inverse (30_encoding.md R50 to R68): the ranges of the immediates, the decoding of each
format's word, a word put together again from its fields, then the two directions of the round trip. -/

namespace Sys2Proof

/-! ### The ranges of the immediates -/

theorem simm7InRange_iff (n : Int) : simm7InRange n = true ↔ -64 ≤ n ∧ n ≤ 63 := by simp [simm7InRange]

theorem off4InRange_iff (n : Int) : off4InRange n = true ↔ -8 ≤ n ∧ n ≤ 7 := by simp [off4InRange]

theorem jimm9InRange_iff (n : Int) : jimm9InRange n = true ↔ -256 ≤ n ∧ n ≤ 255 := by simp [jimm9InRange]

/-- A signed field holds every immediate of its range. -/
theorem toInt_ofInt_seven {n : Int} (h : simm7InRange n = true) : (BitVec.ofInt 7 n).toInt = n := by
  obtain ⟨hlo, hhi⟩ := (simm7InRange_iff n).mp h
  exact BitVec.toInt_ofInt_eq_self (by decide) (by simpa using hlo) (by norm_num; omega)

theorem toInt_ofInt_four {n : Int} (h : off4InRange n = true) : (BitVec.ofInt 4 n).toInt = n := by
  obtain ⟨hlo, hhi⟩ := (off4InRange_iff n).mp h
  exact BitVec.toInt_ofInt_eq_self (by decide) (by simpa using hlo) (by norm_num; omega)

theorem toInt_ofInt_nine {n : Int} (h : jimm9InRange n = true) : (BitVec.ofInt 9 n).toInt = n := by
  obtain ⟨hlo, hhi⟩ := (jimm9InRange_iff n).mp h
  exact BitVec.toInt_ofInt_eq_self (by decide) (by simpa using hlo) (by norm_num; omega)

/-- An unsigned field holds every number below the power of two of its width. -/
theorem toNat_ofNat_shamt {n : Nat} (h : shamtInRange n = true) : (BitVec.ofNat 4 n).toNat = n :=
  Nat.mod_eq_of_lt (Nat.lt_succ_of_le (of_decide_eq_true h))

theorem toNat_ofNat_uimm9 {n : Nat} (h : uimm9InRange n = true) : (BitVec.ofNat 9 n).toNat = n :=
  Nat.mod_eq_of_lt (Nat.lt_succ_of_le (of_decide_eq_true h))

theorem toNat_ofNat_service {n : Nat} (h : serviceInRange n = true) : (BitVec.ofNat 10 n).toNat = n :=
  Nat.mod_eq_of_lt (Nat.lt_succ_of_le (of_decide_eq_true h))

/-- A field read as a signed or an unsigned number lies in the range of its width. -/
theorem simm7InRange_simmField (w : Word) : simm7InRange (simmField w) = true :=
  (simm7InRange_iff _).mpr ⟨BitVec.le_toInt _, BitVec.toInt_le⟩

theorem off4InRange_off4Field (w : Word) : off4InRange (off4Field w) = true :=
  (off4InRange_iff _).mpr ⟨BitVec.le_toInt _, BitVec.toInt_le⟩

theorem jimm9InRange_imm9Field (w : Word) : jimm9InRange (imm9Field w).toInt = true :=
  (jimm9InRange_iff _).mpr ⟨BitVec.le_toInt _, BitVec.toInt_le⟩

theorem shamtInRange_shamtField (w : Word) : shamtInRange (shamtField w) = true :=
  decide_eq_true (Nat.le_of_lt_succ (BitVec.isLt _))

theorem uimm9InRange_imm9Field (w : Word) : uimm9InRange (imm9Field w).toNat = true :=
  decide_eq_true (Nat.le_of_lt_succ (BitVec.isLt _))

theorem serviceInRange_serviceField (w : Word) : serviceInRange (serviceField w) = true :=
  decide_eq_true (Nat.le_of_lt_succ (BitVec.isLt _))

/-! ### What an encoded instruction decodes to -/

theorem decodeWord_eq_ok_iff {w : Word} {i : Instr} : decodeWord w = .ok i ↔ decodeFields w = some i := by
  rcases decodeWord_cases w with ⟨k, hf, hd⟩ | ⟨hf, hd⟩ <;> simp [hf, hd]

/-- The family decoder of each format's word, and the operands it reads back. -/
theorem decodeFields_encode {i : Instr} (h : i.wellFormed = true) : decodeFields (encode i) = some i := by
  cases i
  case add | sub | slt | sltu | sll | srl | sra | or | and | xor | mv | jr | jalr =>
    simp [encode, decodeFields, decodeR, wordR_fields]
  case addi | slti | sltui | ori | andi | xori | li =>
    simp [encode, decodeFields, decodeI, wordI_fields, toInt_ofInt_seven h]
  case slli | srli | srai =>
    simp [encode, decodeFields, decodeI, decodeShift, wordShift_fields, toNat_ofNat_shamt h, -BitVec.toNat_ofNat]
  case beq | bne | bz | bnz | blt | bge | bltu | bgeu =>
    simp [encode, decodeFields, decodeB, wordOff4_fields, toInt_ofInt_four h]
  case sb | sw => simp [encode, decodeFields, decodeS, wordOff4_fields, toInt_ofInt_four h]
  case lb | lw | lbu => simp [encode, decodeFields, decodeL, wordOff4_fields, toInt_ofInt_four h]
  case j | jal => simp [encode, decodeFields, decodeJ, wordImm9_fields, toInt_ofInt_nine h]
  case lui | auipc => simp [encode, decodeFields, decodeU, wordImm9_fields, toNat_ofNat_uimm9 h, -BitVec.toNat_ofNat]
  case ecall => simp [encode, decodeFields, decodeSys, wordSys_fields, toNat_ofNat_service h, -BitVec.toNat_ofNat]

/-- Settles O3: every format's word has the selecting fields of its row, and every operand field reads back its operand. -/
theorem encodeThenDecodeGivesTheInstruction : Obligations.EncodeThenDecodeGivesTheInstruction :=
  fun _ h => decodeWord_eq_ok_iff.mpr (decodeFields_encode h)

/-! ### A word put together again from its fields -/

/-- Two neighbouring fields are one field. -/
theorem fields_join {w : Word} {lo n m : Nat} : w.extractLsb' (lo + n) m ++ w.extractLsb' lo n = w.extractLsb' lo (m + n) :=
  BitVec.extractLsb'_append_extractLsb'_eq_extractLsb' rfl

theorem wordR_of_fields {w : Word} {f4 : BitVec 4} {f3 : BitVec 3} (hop : opField w = 0#3)
    (h4 : (funct4Field w).toNat = f4.toNat) (h3 : (funct3Field w).toNat = f3.toNat) :
    wordR f4 (reg119 w) (reg86 w) f3 = w := by
  rw [← BitVec.eq_of_toNat_eq h4, ← BitVec.eq_of_toNat_eq h3, wordR, ← hop, reg119, reg86, Reg.toBits_ofBits, Reg.toBits_ofBits,
    funct4Field, funct3Field, opField, @fields_join w 9 3 4, @fields_join w 6 3 7, @fields_join w 3 3 10, @fields_join w 0 3 13]
  exact BitVec.extractLsb'_eq_self

theorem wordI_of_fields {w : Word} {f3 : BitVec 3} (hop : opField w = 1#3) (h3 : (funct3Field w).toNat = f3.toNat) :
    wordI (simmField w) (reg86 w) f3 = w := by
  rw [← BitVec.eq_of_toNat_eq h3, wordI, ← hop, simmField, BitVec.ofInt_toInt, reg86, Reg.toBits_ofBits, funct3Field, opField,
    @fields_join w 6 3 7, @fields_join w 3 3 10, @fields_join w 0 3 13]
  exact BitVec.extractLsb'_eq_self

theorem wordShift_of_fields {w : Word} {sel : BitVec 3} (hop : opField w = 1#3) (h3 : funct3Field w = 3#3)
    (hsel : (shselField w).toNat = sel.toNat) : wordShift sel (shamtField w) (reg86 w) = w := by
  rw [← BitVec.eq_of_toNat_eq hsel, wordShift, ← hop, ← h3, shamtField, BitVec.ofNat_toNat, BitVec.setWidth_eq, reg86,
    Reg.toBits_ofBits, shselField, funct3Field, opField, @fields_join w 9 4 3, @fields_join w 6 3 7, @fields_join w 3 3 10,
    @fields_join w 0 3 13]
  exact BitVec.extractLsb'_eq_self

theorem wordOff4_of_fields {w : Word} {f3 op : BitVec 3} (hop : opField w = op) (h3 : (funct3Field w).toNat = f3.toNat) :
    wordOff4 (off4Field w) (reg119 w) (reg86 w) f3 op = w := by
  rw [← BitVec.eq_of_toNat_eq h3, wordOff4, ← hop, off4Field, BitVec.ofInt_toInt, reg119, reg86, Reg.toBits_ofBits,
    Reg.toBits_ofBits, funct3Field, opField, @fields_join w 9 3 4, @fields_join w 6 3 7, @fields_join w 3 3 10,
    @fields_join w 0 3 13]
  exact BitVec.extractLsb'_eq_self

theorem wordImm9_of_fields {w : Word} {f : BitVec 1} {op : BitVec 3} (hop : opField w = op) (hf : (fField w).toNat = f.toNat) :
    wordImm9 f (imm9Field w) (reg86 w) op = w := by
  have hupper : (imm9Field w).extractLsb' 3 6 = w.extractLsb' 9 6 := by
    rw [imm9Field, BitVec.extractLsb'_append_eq_of_le (by decide)]; exact BitVec.extractLsb'_eq_self
  have hlower : (imm9Field w).extractLsb' 0 3 = w.extractLsb' 3 3 := by
    rw [imm9Field, BitVec.extractLsb'_append_eq_of_add_le (by decide)]; exact BitVec.extractLsb'_eq_self
  rw [← BitVec.eq_of_toNat_eq hf, wordImm9, ← hop, hupper, hlower, reg86, Reg.toBits_ofBits, fField, opField,
    @fields_join w 9 6 1, @fields_join w 6 3 7, @fields_join w 3 3 10, @fields_join w 0 3 13]
  exact BitVec.extractLsb'_eq_self

/-- The J format, whose immediate is signed. -/
theorem wordImm9_of_signed {w : Word} {f : BitVec 1} {op : BitVec 3} (hop : opField w = op) (hf : (fField w).toNat = f.toNat) :
    wordImm9 f (BitVec.ofInt 9 (imm9Field w).toInt) (reg86 w) op = w := by
  rw [BitVec.ofInt_toInt, wordImm9_of_fields hop hf]

/-- The U format, whose immediate is unsigned. -/
theorem wordImm9_of_unsigned {w : Word} {f : BitVec 1} {op : BitVec 3} (hop : opField w = op) (hf : (fField w).toNat = f.toNat) :
    wordImm9 f (BitVec.ofNat 9 (imm9Field w).toNat) (reg86 w) op = w := by
  rw [BitVec.ofNat_toNat, BitVec.setWidth_eq, wordImm9_of_fields hop hf]

theorem wordSys_of_fields {w : Word} {f3 : BitVec 3} (hop : opField w = 7#3) (h3 : (funct3Field w).toNat = f3.toNat) :
    wordSys (serviceField w) f3 = w := by
  rw [← BitVec.eq_of_toNat_eq h3, wordSys, ← hop, serviceField, BitVec.ofNat_toNat, BitVec.setWidth_eq, funct3Field, opField,
    @fields_join w 3 3 10, @fields_join w 0 3 13]
  exact BitVec.extractLsb'_eq_self

/-! ### Clearing an ignored field (R67) -/

theorem wordR_clear_rs2 (f4 : BitVec 4) (rs2 rd : Reg) (f3 : BitVec 3) :
    wordR f4 rs2 rd f3 &&& 0xF1FF#16 = wordR f4 .t0 rd f3 := by
  have h := and_append5 f4 (BitVec.allOnes 4) rs2.toBits 0#3 rd.toBits (BitVec.allOnes 3) f3 (BitVec.allOnes 3) 0b000#3
    (BitVec.allOnes 3)
  simp only [BitVec.and_allOnes, BitVec.and_zero] at h
  exact h

theorem wordOff4_clear_rs2 (n : Int) (rs2 rs1 : Reg) (f3 op : BitVec 3) :
    wordOff4 n rs2 rs1 f3 op &&& 0xF1FF#16 = wordOff4 n .t0 rs1 f3 op := by
  have h := and_append5 (BitVec.ofInt 4 n) (BitVec.allOnes 4) rs2.toBits 0#3 rs1.toBits (BitVec.allOnes 3) f3 (BitVec.allOnes 3) op
    (BitVec.allOnes 3)
  simp only [BitVec.and_allOnes, BitVec.and_zero] at h
  exact h

theorem wordImm9_clear_rd (f : BitVec 1) (imm : BitVec 9) (rd : Reg) (op : BitVec 3) :
    wordImm9 f imm rd op &&& 0xFE3F#16 = wordImm9 f imm .t0 op := by
  have h := and_append5 f (BitVec.allOnes 1) (imm.extractLsb' 3 6) (BitVec.allOnes 6) rd.toBits 0#3 (imm.extractLsb' 0 3)
    (BitVec.allOnes 3) op (BitVec.allOnes 3)
  simp only [BitVec.and_allOnes, BitVec.and_zero] at h
  exact h

/-! ### What was decoded, encoded again -/

/-- The instruction is well formed, and its word is `w` but for the bits that R67 ignores. -/
def Reencodes (w : Word) (i : Instr) : Prop := i.wellFormed = true ∧ encode i = w &&& i.careMask

/-- An instruction without ignored fields. -/
theorem reencodes_of_encode_eq {w : Word} {i : Instr} (hwf : i.wellFormed = true) (he : encode i = w)
    (hcare : i.careMask = BitVec.allOnes 16) : Reencodes w i :=
  ⟨hwf, by rw [hcare, BitVec.and_allOnes, he]⟩

/-- `jr`, `bz`, `bnz` and `j`: the ignored field is encoded as 0. -/
theorem reencodes_of_clear {w u : Word} {i : Instr} (hwf : i.wellFormed = true) (he : u &&& i.careMask = encode i) (hu : u = w) :
    Reencodes w i :=
  ⟨hwf, by rw [← hu, he]⟩

theorem reencodes_of_decodeR {w : Word} {i : Instr} (hop : opField w = 0#3) (h : decodeR w = some i) : Reencodes w i := by
  unfold decodeR at h
  split at h <;> cases h <;> rename_i h4 h3
  case h_12 => exact reencodes_of_clear rfl (wordR_clear_rs2 _ _ _ _) (wordR_of_fields hop h4 h3)
  all_goals exact reencodes_of_encode_eq rfl (wordR_of_fields hop h4 h3) rfl

theorem reencodes_of_decodeShift {w : Word} {i : Instr} (hop : opField w = 1#3) (h3 : funct3Field w = 3#3)
    (h : decodeShift w = some i) : Reencodes w i := by
  unfold decodeShift at h
  split at h <;> cases h
  all_goals rename_i hsel; exact reencodes_of_encode_eq (shamtInRange_shamtField w) (wordShift_of_fields hop h3 hsel) rfl

/-- The last row of a family whose `funct3` is complete: what is none of the seven others is 7. -/
theorem toNat_eq_seven {b : BitVec 3} (h0 : b.toNat ≠ 0) (h1 : b.toNat ≠ 1) (h2 : b.toNat ≠ 2) (h3 : b.toNat ≠ 3)
    (h4 : b.toNat ≠ 4) (h5 : b.toNat ≠ 5) (h6 : b.toNat ≠ 6) : b.toNat = 7 := by
  have := b.isLt
  omega

/-- The row of the J and U formats whose `f` is not 0. -/
theorem toNat_eq_one {b : BitVec 1} (h0 : b.toNat ≠ 0) : b.toNat = 1 := by
  have := b.isLt
  omega

theorem reencodes_of_decodeI {w : Word} {i : Instr} (hop : opField w = 1#3) (h : decodeI w = some i) : Reencodes w i := by
  unfold decodeI at h
  split at h
  case h_4 h3 => exact reencodes_of_decodeShift hop (BitVec.eq_of_toNat_eq h3) h
  case h_8 h0 h1 h2 h3 h4 h5 h6 =>
    cases h
    exact reencodes_of_encode_eq (simm7InRange_simmField w)
      (wordI_of_fields hop (toNat_eq_seven h0 h1 h2 h3 h4 h5 h6)) rfl
  all_goals
    rename_i h3; cases h
    exact reencodes_of_encode_eq (simm7InRange_simmField w) (wordI_of_fields hop h3) rfl

theorem reencodes_of_decodeB {w : Word} {i : Instr} (hop : opField w = 2#3) (h : decodeB w = some i) : Reencodes w i := by
  unfold decodeB at h
  split at h <;> cases h
  case h_3 h3 | h_4 h3 =>
    exact reencodes_of_clear (off4InRange_off4Field w) (wordOff4_clear_rs2 _ _ _ _ _) (wordOff4_of_fields hop h3)
  case h_8 h0 h1 h2 h3 h4 h5 h6 =>
    exact reencodes_of_encode_eq (off4InRange_off4Field w)
      (wordOff4_of_fields hop (toNat_eq_seven h0 h1 h2 h3 h4 h5 h6)) rfl
  all_goals rename_i h3; exact reencodes_of_encode_eq (off4InRange_off4Field w) (wordOff4_of_fields hop h3) rfl

theorem reencodes_of_decodeS {w : Word} {i : Instr} (hop : opField w = 3#3) (h : decodeS w = some i) : Reencodes w i := by
  unfold decodeS at h
  split at h <;> cases h
  all_goals rename_i h3; exact reencodes_of_encode_eq (off4InRange_off4Field w) (wordOff4_of_fields hop h3) rfl

theorem reencodes_of_decodeL {w : Word} {i : Instr} (hop : opField w = 4#3) (h : decodeL w = some i) : Reencodes w i := by
  unfold decodeL at h
  split at h <;> cases h
  all_goals rename_i h3; exact reencodes_of_encode_eq (off4InRange_off4Field w) (wordOff4_of_fields hop h3) rfl

theorem reencodes_of_decodeJ {w : Word} {i : Instr} (hop : opField w = 5#3) (h : decodeJ w = some i) : Reencodes w i := by
  unfold decodeJ at h
  split at h <;> cases h
  case h_1 hf =>
    exact reencodes_of_clear (jimm9InRange_imm9Field w) (wordImm9_clear_rd _ _ _ _) (wordImm9_of_signed hop hf)
  case h_2 hf =>
    exact reencodes_of_encode_eq (jimm9InRange_imm9Field w) (wordImm9_of_signed hop (toNat_eq_one hf)) rfl

theorem reencodes_of_decodeU {w : Word} {i : Instr} (hop : opField w = 6#3) (h : decodeU w = some i) : Reencodes w i := by
  unfold decodeU at h
  split at h <;> cases h
  case h_1 hf => exact reencodes_of_encode_eq (uimm9InRange_imm9Field w) (wordImm9_of_unsigned hop hf) rfl
  case h_2 hf =>
    exact reencodes_of_encode_eq (uimm9InRange_imm9Field w) (wordImm9_of_unsigned hop (toNat_eq_one hf)) rfl

theorem reencodes_of_decodeSys {w : Word} {i : Instr} (hop : opField w = 7#3) (h : decodeSys w = some i) : Reencodes w i := by
  unfold decodeSys at h
  split at h <;> cases h
  rename_i h3
  exact reencodes_of_encode_eq (serviceInRange_serviceField w) (wordSys_of_fields hop h3) rfl

theorem reencodes_of_decodeFields {w : Word} {i : Instr} (h : decodeFields w = some i) : Reencodes w i := by
  unfold decodeFields at h
  split at h
  case h_1 hop => exact reencodes_of_decodeR (BitVec.eq_of_toNat_eq hop) h
  case h_2 hop => exact reencodes_of_decodeI (BitVec.eq_of_toNat_eq hop) h
  case h_3 hop => exact reencodes_of_decodeB (BitVec.eq_of_toNat_eq hop) h
  case h_4 hop => exact reencodes_of_decodeS (BitVec.eq_of_toNat_eq hop) h
  case h_5 hop => exact reencodes_of_decodeL (BitVec.eq_of_toNat_eq hop) h
  case h_6 hop => exact reencodes_of_decodeJ (BitVec.eq_of_toNat_eq hop) h
  case h_7 hop => exact reencodes_of_decodeU (BitVec.eq_of_toNat_eq hop) h
  case h_8 h0 h1 h2 h3 h4 h5 h6 =>
    exact reencodes_of_decodeSys (BitVec.eq_of_toNat_eq (toNat_eq_seven h0 h1 h2 h3 h4 h5 h6)) h

/-- Settles O4: the decoder's families one by one; in each row the selecting fields are the row's, so the word put together again
from its fields is the word, but for an ignored field. -/
theorem decodeThenEncodeGivesTheWordButIgnoredFields : Obligations.DecodeThenEncodeGivesTheWordButIgnoredFields :=
  fun _ _ h => reencodes_of_decodeFields (decodeWord_eq_ok_iff.mp h)

/-- Settles O2: each word is written out, so the decoder's answer is computed. -/
theorem writtenOutWordsDecode : Obligations.WrittenOutWordsDecode := by
  refine ⟨?_, ?_, ?_, ?_, ?_, ?_, ?_, ?_, ?_⟩ <;> decide

end Sys2Proof
end

section
/-! PROOFS. What any instruction may change and when it faults: the two answers of an instruction said apart, then the whole-machine
rules over all instructions (R13, R17, R23, R24, R83, R160, R203, R221) and the step's answer (R81, R83). -/

namespace Sys2Proof.Safety

open Sys2Proof.Machine

/-! ### The bytes a store leaves -/

theorem get_memWrite8_outside {m m' : Memory} {ea : Int} {v : Word} (h : memWrite8 m ea v = .ok m') {a : Nat}
    (ha : (a : Int) < ea ∨ ea + 1 ≤ a) : m'.get a = m.get a := by
  obtain ⟨hin, rfl⟩ := memWrite8_ok h
  obtain ⟨hlo, -⟩ := (inBounds_iff ea 1).mp hin
  exact Memory.get_set_other _ _ (by omega)

theorem get_memWrite16_outside {m m' : Memory} {ea : Int} {v : Word} (h : memWrite16 m ea v = .ok m') {a : Nat}
    (ha : (a : Int) < ea ∨ ea + 2 ≤ a) : m'.get a = m.get a := by
  obtain ⟨hin, rfl⟩ := memWrite16_ok h
  obtain ⟨hlo, -⟩ := (inBounds_iff ea 2).mp hin
  rw [Memory.get_set_other _ _ (by omega), Memory.get_set_other _ _ (by omega)]

/-! ### The two answers of an instruction -/

theorem nextPc_parity (s : State) : s.nextPc.toNat % 2 = s.pc.toNat % 2 := by
  rw [nextPc_eq_u16]
  have := u16_toNat (s.pc.toNat + 2)
  omega

/-- The state after an instruction that answers next: `pc` set, perhaps with the destination written; the stored bytes written; an
output emitted; or the halt of `ecall 3`. -/
inductive Effect (i : Instr) (s : State) : State → Prop
  | jump (target : Word) (hi : i ≠ .ecall 3)
      (hparity : jumpsThroughRegister i = false → target.toNat % 2 = s.pc.toNat % 2) : Effect i s (s.setPc target)
  | write (rd : Reg) (v target : Word) (hi : i ≠ .ecall 3) (hrd : destination i = some rd)
      (hparity : jumpsThroughRegister i = false → target.toNat % 2 = s.pc.toNat % 2) :
      Effect i s ((s.setReg rd v).setPc target)
  | store (m : Memory) (ea : Int) (n : Nat) (hi : i ≠ .ecall 3) (hstored : storedBytes s i = some (ea, n))
      (hbytes : ∀ a : Nat, (a : Int) < ea ∨ ea + n ≤ a → m.get a = s.mem.get a)
      (hwf : s.mem.wf = true → m.wf = true) : Effect i s (s.setMem m).advance
  | output (o : EcallOutput) (hi : i ≠ .ecall 3) : Effect i s (s.emit (.ecallOutput o)).advance
  | halt (hi : i = .ecall 3) : Effect i s (s.emit (.ecallOutput .terminate)).haltRun

theorem ne_ecall_of_storedBytes {s : State} {i : Instr} {k : Nat} {access : Int × Nat} (h : storedBytes s i = some access) :
    i ≠ .ecall k := by
  rintro rfl
  exact nomatch h

theorem effect_of_exec {i : Instr} {s t : State} (h : exec i s = .next t) : Effect i s t := by
  rcases exec_cases i s with ⟨rd, v, e, hrd, _, hi⟩ | ⟨p, e, hi, hp⟩ | ⟨rd, v, p, e, hrd, hi, hp⟩ |
    ⟨m, ea, v, hm, hs, e⟩ | ⟨m, ea, v, hm, hs, e⟩ | ⟨o, e, n, rfl, hn⟩ | ⟨e, hi⟩ | ⟨_, _, e, _⟩ | ⟨e, _⟩ <;> cases e.symm.trans h
  case inl => exact .write rd v _ hi hrd fun _ => nextPc_parity _
  case inr.inl => exact .jump p hi hp
  case inr.inr.inl => exact .write rd v p hi hrd hp
  case inr.inr.inr.inl =>
    exact .store m ea 1 (ne_ecall_of_storedBytes hs) hs (fun a => get_memWrite8_outside hm) (wf_memWrite8 hm)
  case inr.inr.inr.inr.inl =>
    exact .store m ea 2 (ne_ecall_of_storedBytes hs) hs (fun a => get_memWrite16_outside hm) (wf_memWrite16 hm)
  case inr.inr.inr.inr.inr.inl => exact .output o fun e => hn (Instr.ecall.inj e)
  case inr.inr.inr.inr.inr.inr.inl => exact .halt hi

/-- What an instruction that faults reports: its own data access, out of bounds; or `ecall 5` the end of memory. -/
theorem exec_fault_cases {i : Instr} {s : State} {f : Fault} (h : exec i s = .fault f) :
    (∃ ea n, dataAccess s i = some (ea, n) ∧ f = .memoryBounds ea n ∧ inBounds ea n = false ∧ (n = 1 ∨ n = 2)) ∨
    (i = .ecall 5 ∧ f = .memoryBounds 65536 1) := by
  rcases exec_cases i s with ⟨_, _, e, _⟩ | ⟨_, e, _⟩ | ⟨_, _, _, e, _⟩ | ⟨_, _, _, _, _, e⟩ |
    ⟨_, _, _, _, _, e⟩ | ⟨_, e, _⟩ | ⟨e, _⟩ | ⟨ea, n, e, hacc, hb, hn⟩ | ⟨e, hi⟩ <;> cases e.symm.trans h
  case inr.inr.inr.inr.inr.inr.inr.inl => exact .inl ⟨ea, n, hacc, rfl, hb, hn⟩
  case inr.inr.inr.inr.inr.inr.inr.inr => exact .inr ⟨hi, rfl⟩

theorem leavesMemory_of_not_inBounds {a : Int} {n : Nat} (h : inBounds a n = false) : leavesMemory a n := by
  rw [← Bool.not_eq_true, inBounds_iff] at h
  unfold leavesMemory
  omega

/-! ### The statements -/

/-- Settles O23: the stores alone write memory, and theirs is the write of their own bytes. -/
theorem onlyStoresChangeMemoryAndOnlyTheirBytes : Obligations.OnlyStoresChangeMemoryAndOnlyTheirBytes := by
  intro i s t h
  cases effect_of_exec h with
  | store m ea n _ hstored hbytes =>
    refine ⟨fun hnone => (nomatch hstored.symm.trans hnone), fun ea' n' hsome => ?_⟩
    cases hstored.symm.trans hsome
    exact hbytes
  | jump | write | output | halt => exact ⟨fun _ _ => rfl, fun _ _ _ _ _ => rfl⟩

/-- Settles O24: the one effect that writes a register writes the destination. -/
theorem onlyTheDestinationRegisterChanges : Obligations.OnlyTheDestinationRegisterChanges := by
  intro i s t h r hr
  cases effect_of_exec h with
  | write rd v target _ hrd =>
    have hne : r ≠ rd := fun e => hr (hrd.trans (congrArg some e.symm))
    rw [State.reg_setPc, State.reg_setReg_other s v hne]
  | jump | store | output | halt => rfl

/-- Settles O25: no effect touches the two. -/
theorem noInstructionChangesSizeOrCount : Obligations.NoInstructionChangesSizeOrCount := by
  intro i s t h
  cases effect_of_exec h with
  | jump | write | store | output | halt => exact ⟨rfl, rfl⟩

/-- Settles O26: the halt is the effect of `ecall 3` alone. -/
theorem onlyEcallThreeHalts : Obligations.OnlyEcallThreeHalts := by
  intro i s t h
  cases effect_of_exec h with
  | halt hi => exact ⟨fun _ => rfl, fun hne => absurd hi hne⟩
  | jump _ hi | write _ _ _ hi | store _ _ _ hi | output _ hi => exact ⟨fun he => absurd he hi, fun _ => rfl⟩

/-- Settles O27: a fault is the answer of a bounds check, or the string's end. -/
theorem onlyMemoryAccessesFaultAndOnlyOutOfBounds : Obligations.OnlyMemoryAccessesFaultAndOnlyOutOfBounds := by
  intro i s f h
  rcases exec_fault_cases h with ⟨ea, n, hacc, hf, hb, -⟩ | hstring
  · exact .inl ⟨ea, n, hacc, hf, leavesMemory_of_not_inBounds hb⟩
  · exact .inr hstring

/-- Settles O28: a jump target and the next `pc` differ from `pc` by an even number, also when they wrap; the halt keeps `pc`. -/
theorem onlyRegisterJumpsChangeTheParityOfPc : Obligations.OnlyRegisterJumpsChangeTheParityOfPc := by
  intro i s t hj h
  cases effect_of_exec h with
  | jump _ _ hparity | write _ _ _ _ _ hparity => exact hparity hj
  | store | output => exact nextPc_parity s
  | halt => rfl

/-- Settles O15: the step answers next in each of its cases. -/
theorem everyStepAnswersANextState : Obligations.EveryStepAnswersANextState := by
  intro s
  rcases step_full s with ⟨_, _, h⟩ | ⟨_, _, h⟩ | ⟨_, _, _, h⟩ | ⟨_, _, _, _, _, h⟩ |
    ⟨_, _, _, _, _, ⟨_, _, _, _, h⟩ | ⟨_, _, _, _, h⟩ | ⟨_, h⟩⟩ <;> exact ⟨_, h⟩

end Sys2Proof.Safety
end

section
/-! PROOFS. The invariant of the machine: it holds at reset and for every loaded image, and every step keeps it (R26, R81 to
R87, R251). -/

namespace Sys2Proof.Safety

open Sys2Proof.Machine

/-! ### While the machine runs, and when it stops -/

/-- Of a running state the invariant says only what memory, size, count and events must satisfy. -/
theorem Inv.of_running {s : State} (hrun : s.status = .running) (hmem : s.mem.wf = true) (hsize : s.programSize ≤ 65536)
    (hcount : s.icount ≤ 10000) (htrace : s.events.countP isTrace = s.icount) : Inv s where
  memoryCanonical := hmem
  programSizeFits := hsize
  countWithinBudget := hcount
  oneTracePerInstruction := htrace
  endOfProgramReached h := nomatch hrun.symm.trans h
  budgetUsedUp h := nomatch hrun.symm.trans h
  haltAnnounced h := nomatch hrun.symm.trans h
  faultOutOfBounds _ _ h := nomatch hrun.symm.trans h

/-- An event that is no `Trace` keeps the invariant of a running machine. -/
theorem Inv.emit {s : State} (h : Inv s) (hrun : s.status = .running) {e : Event} (he : isTrace e = false) : Inv (s.emit e) :=
  .of_running hrun h.memoryCanonical h.programSizeFits h.countWithinBudget
    (by simp [he, h.oneTracePerInstruction])

theorem Inv.advance {s : State} (h : Inv s) (hrun : s.status = .running) : Inv s.advance :=
  .of_running hrun h.memoryCanonical h.programSizeFits h.countWithinBudget h.oneTracePerInstruction

/-- The `Trace` and the count of R81 lines 4 and 5 go together. -/
theorem Inv.beginInstruction {s : State} (h : Inv s) (hrun : s.status = .running) (hbudget : s.icount < 10000) (w : Word) :
    Inv (beginInstruction w s) :=
  .of_running hrun h.memoryCanonical h.programSizeFits hbudget (by simp [isTrace, h.oneTracePerInstruction])

theorem Inv.takeFault {s : State} (h : Inv s) {a : Int} {n : Nat} (hbounds : leavesMemory a n) (hn : n = 1 ∨ n = 2) :
    Inv (s.takeFault (.memoryBounds a n)) where
  memoryCanonical := h.memoryCanonical
  programSizeFits := h.programSizeFits
  countWithinBudget := h.countWithinBudget
  oneTracePerInstruction := h.oneTracePerInstruction
  endOfProgramReached h := nomatch h
  budgetUsedUp h := nomatch h
  haltAnnounced h := nomatch h
  faultOutOfBounds _ _ h := by cases h; exact ⟨hbounds, hn⟩

theorem Inv.endOfProgram {s : State} (h : Inv s) (hend : s.programSize ≤ s.pc.toNat) : Inv (s.stop .endOfProgram) where
  memoryCanonical := h.memoryCanonical
  programSizeFits := h.programSizeFits
  countWithinBudget := h.countWithinBudget
  oneTracePerInstruction := h.oneTracePerInstruction
  endOfProgramReached _ := hend
  budgetUsedUp h := nomatch h
  haltAnnounced h := nomatch h
  faultOutOfBounds _ _ h := nomatch h

theorem Inv.stopOnBudget {s : State} (h : Inv s) (hin : s.pc.toNat < s.programSize) (hspent : 10000 ≤ s.icount) :
    Inv (stopOnBudget s) where
  memoryCanonical := h.memoryCanonical
  programSizeFits := h.programSizeFits
  countWithinBudget := h.countWithinBudget
  oneTracePerInstruction := by simp [isTrace, h.oneTracePerInstruction]
  endOfProgramReached h := nomatch h
  budgetUsedUp _ := ⟨Nat.le_antisymm h.countWithinBudget hspent, hin, by simp⟩
  haltAnnounced h := nomatch h
  faultOutOfBounds _ _ h := nomatch h

/-- The halt of `ecall 3` comes right after its output. -/
theorem Inv.halt {s : State} (h : Inv s) : Inv (s.emit (.ecallOutput .terminate)).haltRun where
  memoryCanonical := h.memoryCanonical
  programSizeFits := h.programSizeFits
  countWithinBudget := h.countWithinBudget
  oneTracePerInstruction := by simp [isTrace, h.oneTracePerInstruction]
  endOfProgramReached h := nomatch h
  budgetUsedUp h := nomatch h
  haltAnnounced _ := by simp
  faultOutOfBounds _ _ h := nomatch h

/-! ### Every instruction, every step -/

/-- An instruction of a running machine that answers next keeps the invariant. -/
theorem Inv.exec {i : Instr} {s t : State} (h : Inv s) (hrun : s.status = .running) (hexec : exec i s = .next t) : Inv t := by
  cases effect_of_exec hexec with
  | jump | write => exact .of_running hrun h.memoryCanonical h.programSizeFits h.countWithinBudget h.oneTracePerInstruction
  | store m _ _ _ _ _ hwf =>
    exact .of_running hrun (hwf h.memoryCanonical) h.programSizeFits h.countWithinBudget h.oneTracePerInstruction
  | output o => exact (h.emit hrun rfl).advance hrun
  | halt => exact h.halt

theorem Inv.exec_fault {i : Instr} {s : State} {f : Fault} (h : Inv s) (hexec : Machine.exec i s = .fault f) :
    Inv (s.takeFault f) := by
  rcases exec_fault_cases hexec with ⟨ea, n, -, rfl, hb, hn⟩ | ⟨-, rfl⟩
  · exact h.takeFault (leavesMemory_of_not_inBounds hb) hn
  · exact h.takeFault (.inr (by decide)) (.inl rfl)

theorem Inv.fetch_fault {s : State} {f : Fault} (h : Inv s) (hfetch : fetch s = .error f) : Inv (s.takeFault f) := by
  obtain ⟨hb, rfl⟩ := memRead16_error hfetch
  exact h.takeFault (leavesMemory_of_not_inBounds hb) (.inr rfl)

/-- Settles O13, by what the step can do: it stays, it stops with a reason that is true of the state, or it counts one instruction
and performs it. -/
theorem everyStepKeepsTheInvariant : Obligations.EveryStepKeepsTheInvariant := by
  intro s t h hstep
  rcases step_full s with ⟨_, _, e⟩ | ⟨_, hend, e⟩ | ⟨_, hin, hspent, e⟩ | ⟨_, _, _, f, hfetch, e⟩ |
    ⟨hrun, _, hbudget, w, _, hword⟩
  case inl => cases e.symm.trans hstep; exact h
  case inr.inl => cases e.symm.trans hstep; exact h.endOfProgram hend
  case inr.inr.inl => cases e.symm.trans hstep; exact h.stopOnBudget hin hspent
  case inr.inr.inr.inl => cases e.symm.trans hstep; exact h.fetch_fault hfetch
  case inr.inr.inr.inr =>
    have hbegin := h.beginInstruction hrun hbudget w
    rcases hword with ⟨i, _, _, hexec, e⟩ | ⟨i, f, _, hexec, e⟩ | ⟨_, e⟩ <;> cases e.symm.trans hstep
    · exact hbegin.exec hrun hexec
    · exact hbegin.exec_fault hexec
    · exact (hbegin.emit hrun rfl).advance hrun

/-! ### Reset and loading -/

/-- Settles O10: the reset state is written out, so each piece is read off; `sp` is the one register that is not 0. -/
theorem resetGivesEveryPieceItsValue : Obligations.ResetGivesEveryPieceItsValue := by
  refine ⟨rfl, fun r hr => ?registers, rfl, rfl, rfl, fun a => Memory.get_nil a, rfl, rfl⟩
  case registers =>
    cases r
    case sp => exact absurd rfl hr
    all_goals rfl

/-- Settles O12: reset is running, lists no byte and no event, and counts nothing. -/
theorem invariantHoldsAtReset : Obligations.InvariantHoldsAtReset :=
  .of_running rfl wf_reset (Nat.zero_le _) (Nat.zero_le _) rfl

theorem byteAt_load (image : List Byte) (a : Nat) : (State.load image).byteAt a = image.getD a 0#8 := by
  have h := get_imageMemory image 0 a
  rwa [if_neg (Nat.not_lt_zero a), Nat.sub_zero] at h

theorem inv_load {image : List Byte} (h : image.length ≤ 65536) : Inv (State.load image) :=
  .of_running rfl (wf_load image h) h (Nat.zero_le _) rfl

/-- Settles O11: the image's bytes are where they are listed, and the rest of the state is that of reset. -/
theorem loadPlacesTheImageAtAddressZero : Obligations.LoadPlacesTheImageAtAddressZero :=
  ⟨fun image h => ⟨byteAt_load image, rfl, rfl, rfl, rfl, rfl, rfl, inv_load h⟩, rfl⟩

end Sys2Proof.Safety
end

section
/-! PROOFS. The engine (40_engine.md R81 to R89): the step in each of its situations, then the statements about one step and the
bound of every run. -/

namespace Sys2Proof.Safety

open Sys2Proof.Machine

/-! ### The step in each of its situations -/

theorem step_of_stopped {s : State} {r : StopReason} (hst : s.status = .stopped r) : step s = .next s := by
  rw [step, engineStep, hst]

theorem step_of_atEnd {s : State} (hrun : s.status = .running) (hend : s.programSize ≤ s.pc.toNat) :
    step s = .next (s.stop .endOfProgram) := by
  simp [step, engineStep, hrun, atEnd, hend]

theorem step_of_budgetSpent {s : State} (hrun : s.status = .running) (hin : s.pc.toNat < s.programSize)
    (hspent : 10000 ≤ s.icount) : step s = .next (stopOnBudget s) := by
  simp [step, engineStep, hrun, atEnd, Nat.not_le.mpr hin, budgetSpent, Config.cycleBudget, hspent]

/-- Past the two stop tests the step is what the fetch answers: a fault before the `Trace`, -/
theorem step_of_fetch_error {s : State} {f : Fault} (hrun : s.status = .running) (hin : s.pc.toNat < s.programSize)
    (hbudget : s.icount < 10000) (hfetch : fetch s = .error f) : step s = .next (s.takeFault f) := by
  simp [step, engineStep, hrun, atEnd, Nat.not_le.mpr hin, budgetSpent, Config.cycleBudget, Nat.not_le.mpr hbudget, hfetch]

/-- or the word, performed after its `Trace` and its count. -/
theorem step_of_fetch_ok {s : State} {w : Word} (hrun : s.status = .running) (hin : s.pc.toNat < s.programSize)
    (hbudget : s.icount < 10000) (hfetch : fetch s = .ok w) :
    step s = settle (beginInstruction w s) (executeWord w (beginInstruction w s)) := by
  simp [step, engineStep, hrun, atEnd, Nat.not_le.mpr hin, budgetSpent, Config.cycleBudget, Nat.not_le.mpr hbudget, hfetch]

theorem executeWord_of_ok {w : Word} {i : Instr} (s : State) (hd : decodeWord w = .ok i) : executeWord w s = exec i s := by
  rw [executeWord, hd]

theorem executeWord_of_error {w : Word} {e : DecodeError} (s : State) (hd : decodeWord w = .error e) :
    executeWord w s = .next (stepOverUnknown w s) := by
  rw [executeWord, hd]

theorem settle_next (s t : State) : settle s (.next t) = .next t := rfl

theorem settle_fault (s : State) (f : Fault) : settle s (.fault f) = .next (s.takeFault f) := rfl

/-! ### One step -/

/-- Settles O16: the status is looked at before anything else. -/
theorem stoppedCoreKeepsItsState : Obligations.StoppedCoreKeepsItsState := fun _ _ => step_of_stopped

/-- Settles O17: each test's stop, and what it leaves. -/
theorem stopTestsComeInOrder : Obligations.StopTestsComeInOrder := by
  intro s hrun
  refine ⟨fun hend => ?_, fun hin hspent => ?_⟩
  · exact ⟨_, step_of_atEnd hrun hend, rfl, rfl, rfl, rfl, rfl, fun _ _ => rfl, fun _ => rfl⟩
  · exact ⟨_, step_of_budgetSpent hrun hin hspent, rfl, rfl, rfl, rfl, rfl, fun _ _ => rfl, fun _ => rfl⟩

/-- Settles O18: the word at the last byte would need a byte beyond memory. -/
theorem fetchAtTheLastByteFaultsBeforeTheTrace : Obligations.FetchAtTheLastByteFaultsBeforeTheTrace := by
  intro s hrun hpc hin hbudget
  have hfetch : fetch s = .error (.memoryBounds 65535 2) := by
    rw [fetch, hpc]
    exact memRead16_of_not_inBounds s.mem (by decide)
  exact ⟨_, step_of_fetch_error hrun hin hbudget hfetch, rfl, rfl, rfl, rfl, fun _ _ => rfl, fun _ => rfl⟩

/-- Settles O14: the step past the stop tests, with the word decoded and the instruction's answer settled. -/
theorem stepRunsTheDecodedInstruction : Obligations.StepRunsTheDecodedInstruction := by
  intro s w i hrun hin hbudget hfetch hd
  have hstep := step_of_fetch_ok hrun hin hbudget hfetch
  rw [executeWord_of_ok _ hd] at hstep
  refine ⟨fun t hexec => ?next, fun f hexec => ?fault, rfl, rfl, rfl, rfl, rfl, rfl, hrun⟩
  case next => rw [hstep, hexec, settle_next]
  case fault => rw [hstep, hexec, settle_fault]

/-- Settles O19: the diagnostic follows the `Trace`, and `pc` advances. -/
theorem unknownEncodingIsReportedAndSteppedOver : Obligations.UnknownEncodingIsReportedAndSteppedOver := by
  intro s w hrun hin hbudget hfetch hd
  have hstep := step_of_fetch_ok hrun hin hbudget hfetch
  rw [executeWord_of_error _ hd, settle_next] at hstep
  exact ⟨_, hstep, nextPc_eq_u16 s, by simp, rfl, hrun, rfl, fun _ _ => rfl, fun _ => rfl⟩

/-- Settles O20: the fault clause of O14, and what taking a fault leaves. -/
theorem faultingInstructionStopsTheRunWithoutEffect : Obligations.FaultingInstructionStopsTheRunWithoutEffect := by
  intro s w i f hrun hin hbudget hfetch hd hexec
  obtain ⟨-, hfault, -⟩ := stepRunsTheDecodedInstruction s w i hrun hin hbudget hfetch hd
  exact ⟨_, hfault f hexec, rfl, rfl, rfl, rfl, fun _ _ => rfl, fun _ => rfl⟩

/-! ### Events -/

/-- An instruction that answers next emits nothing or one output. -/
theorem Effect.events {i : Instr} {s t : State} (h : Effect i s t) :
    t.events = s.events ∨ ∃ o, t.events = s.events ++ [.ecallOutput o] := by
  cases h with
  | jump | write | store => exact .inl rfl
  | output o => exact .inr ⟨o, rfl⟩
  | halt => exact .inr ⟨_, rfl⟩

/-- Settles O22: without a fetch at most the budget notice; with one the `Trace`, then what the word itself emits. -/
theorem eventsAreAppendedTraceFirst : Obligations.EventsAreAppendedTraceFirst := by
  intro s t hstep
  rcases step_full s with ⟨_, _, e⟩ | ⟨_, _, e⟩ | ⟨_, _, _, e⟩ | ⟨_, _, _, _, _, e⟩ |
    ⟨_, _, _, w, hfetch, hword⟩
  case inl | inr.inl | inr.inr.inr.inl => cases e.symm.trans hstep; exact .inl rfl
  case inr.inr.inl => cases e.symm.trans hstep; exact .inr (.inl rfl)
  case inr.inr.inr.inr =>
    refine .inr (.inr ⟨w, hfetch, ?_⟩)
    rcases hword with ⟨_, _, _, hexec, e⟩ | ⟨_, _, _, _, e⟩ | ⟨_, e⟩ <;> cases e.symm.trans hstep
    · rcases (effect_of_exec hexec).events with hsame | ⟨o, houtput⟩
      · exact .inl hsame
      · exact .inr ⟨.ecallOutput o, rfl, by simp [houtput]⟩
    · exact .inl rfl
    · exact .inr ⟨.diagnostic s.pc w, rfl, by simp⟩

/-! ### The bound of every run -/

/-- A step of a running machine stops it, or counts one instruction more within the budget. -/
theorem step_stops_or_counts {s : State} (hrun : s.status = .running) :
    ∃ t, step s = .next t ∧ ((∃ r, t.status = .stopped r) ∨ (s.icount < 10000 ∧ t.icount = s.icount + 1)) := by
  rcases step_full s with ⟨_, hst, _⟩ | ⟨_, _, e⟩ | ⟨_, _, _, e⟩ | ⟨_, _, _, _, _, e⟩ |
    ⟨_, _, hbudget, w, _, ⟨i, t, _, hexec, e⟩ | ⟨_, _, _, _, e⟩ | ⟨_, e⟩⟩
  case inl => exact nomatch hrun.symm.trans hst
  case inr.inl | inr.inr.inl | inr.inr.inr.inl => exact ⟨_, e, .inl ⟨_, rfl⟩⟩
  case inr.inr.inr.inr.inl => exact ⟨t, e, .inr ⟨hbudget, (noInstructionChangesSizeOrCount i _ t hexec).2⟩⟩
  case inr.inr.inr.inr.inr.inl => exact ⟨_, e, .inl ⟨_, rfl⟩⟩
  case inr.inr.inr.inr.inr.inr => exact ⟨_, e, .inr ⟨hbudget, rfl⟩⟩

/-- With `n` instructions left of the budget, at most `n + 1` steps reach a stopped state. -/
theorem run_stops_within (n : Nat) (s : State) (hn : 10000 ≤ s.icount + n) :
    ∃ (k : Nat) (t : State) (r : StopReason),
      k ≤ n + 1 ∧ Host.Core.run Sys2Proof.core k s = .next t ∧ t.status = .stopped r := by
  cases hst : s.status with
  | stopped r => exact ⟨0, s, r, Nat.zero_le _, rfl, hst⟩
  | running =>
    obtain ⟨t, e, ⟨r, hr⟩ | ⟨hbudget, hcount⟩⟩ := step_stops_or_counts hst
    · exact ⟨1, t, r, Nat.le_add_left _ _, run_next Sys2Proof.core 0 s t e, hr⟩
    · cases n with
      | zero => omega
      | succ n =>
        obtain ⟨k, u, r, hk, hu, hr⟩ := run_stops_within n t (by omega)
        exact ⟨k + 1, u, r, Nat.succ_le_succ hk, (run_next Sys2Proof.core k s t e).trans hu, hr⟩

/-- Settles O21: at the worst the whole budget is left. -/
theorem everyRunStopsWithinTheBudget : Obligations.EveryRunStopsWithinTheBudget :=
  fun s => run_stops_within 10000 s (Nat.le_add_left _ _)

end Sys2Proof.Safety
end

section
/-! PROOFS. The two readings of a word (00_scope.md R6, R7) and the write access (20_memory.md R35). -/

namespace Sys2Proof.Machine

/-- Settles O1: `u16` is the residue, `signed` the two's complement, and the word of a word's signed reading is the word. -/
theorem wordReadingsAreResidueAndTwosComplement : Obligations.WordReadingsAreResidueAndTwosComplement := by
  refine ⟨u16_toNat, fun v => ?signedReading, fun v => BitVec.ofInt_toInt⟩
  case signedReading =>
    rw [signed, BitVec.toInt_eq_toNat_cond]
    split_ifs <;> omega

/-! ### The write access inside and outside memory -/

theorem memWrite8_of_inBounds {a : Int} (m : Memory) (v : Word) (h : inBounds a 1 = true) :
    memWrite8 m a v = .ok (m.set a.toNat (lowByte v)) := by
  rw [memWrite8, if_pos h]

theorem memWrite8_of_not_inBounds {a : Int} (m : Memory) (v : Word) (h : inBounds a 1 = false) :
    memWrite8 m a v = .error (.memoryBounds a 1) := by
  rw [memWrite8, if_neg (Bool.eq_false_iff.mp h)]

theorem memWrite16_of_not_inBounds {a : Int} (m : Memory) (v : Word) (h : inBounds a 2 = false) :
    memWrite16 m a v = .error (.memoryBounds a 2) := by
  rw [memWrite16, if_neg (Bool.eq_false_iff.mp h)]

/-- Settles O8: the rule of each width and answer of the bounds check, and the read of every byte after the write. -/
theorem memWriteChecksBoundsThenWritesItsBytes : Obligations.MemWriteChecksBoundsThenWritesItsBytes := by
  intro m a v
  refine ⟨fun h => ?byteOut, fun h => ?byteIn, fun h => ?wordOut, fun h => ?wordIn⟩
  case byteOut => exact memWrite8_of_not_inBounds m v ((inBounds_eq_false_iff a 0).mpr (by omega))
  case byteIn =>
    refine ⟨_, memWrite8_of_inBounds m v ((inBounds_eq_true_iff a 0).mpr (by omega)), fun b => ?_⟩
    have hb : b = a.toNat ↔ (b : Int) = a := by omega
    simp only [Memory.get_set, hb]
    split_ifs
    · exact lowByte_toNat v
    · rfl
  case wordOut => exact memWrite16_of_not_inBounds m v ((inBounds_eq_false_iff a 1).mpr h)
  case wordIn =>
    refine ⟨_, memWrite16_of_inBounds m v ((inBounds_eq_true_iff a 1).mpr h), fun b => ?_⟩
    have hlow : b = a.toNat ↔ (b : Int) = a := by omega
    have hhigh : b = a.toNat + 1 ↔ (b : Int) = a + 1 := by omega
    simp only [Memory.get_set, hlow, hhigh]
    split_ifs
    · omega
    · exact highByte_toNat v
    · exact lowByte_toNat v
    · rfl

end Sys2Proof.Machine
end

section
/-! PROOFS. The R-type instructions that rest on the spec's decisions (41_r_type.md): R103, R106 to R109, R112 and R113. -/

namespace Sys2Proof.Safety

open Sys2Proof.Machine

/-! ### The meaning of each instruction as the arithmetic of its rule -/

theorem aluLTU_eq_ite (a b : Word) : aluLTU a b = if a.toNat < b.toNat then 1#16 else 0#16 := by
  simp [aluLTU, boolWord, lessUnsigned]

theorem exec_sltu_eq (rd rs2 : Reg) (s : State) :
    exec (.sltu rd rs2) s = writeResult rd (if (s.reg rd).toNat < (s.reg rs2).toNat then 1#16 else 0#16) s := by
  rw [← aluLTU_eq_ite]; rfl

theorem exec_sra_eq (rd rs2 : Reg) (s : State) :
    exec (.sra rd rs2) s =
      writeResult rd (u16 (Int.fdiv (signed (s.reg rd)) (2 ^ ((s.reg rs2).toNat % 16)))) s := by
  rw [← shiftAmount_eq, ← aluSra_eq_u16]; rfl

theorem exec_or_eq (rd rs2 : Reg) (s : State) : exec (.or rd rs2) s = writeResult rd (s.reg rd ||| s.reg rs2) s := rfl

theorem exec_and_eq (rd rs2 : Reg) (s : State) : exec (.and rd rs2) s = writeResult rd (s.reg rd &&& s.reg rs2) s := rfl

theorem exec_xor_eq (rd rs2 : Reg) (s : State) : exec (.xor rd rs2) s = writeResult rd (s.reg rd ^^^ s.reg rs2) s := rfl

theorem exec_jr_eq (rd : Reg) (s : State) : exec (.jr rd) s = .next (s.setPc (s.reg rd)) := rfl

/-- The target of `jalr` is read after the link is written (R113). -/
theorem exec_jalr_eq (rd rs2 : Reg) (s : State) :
    exec (.jalr rd rs2) s =
      .next ((s.setReg rd s.nextPc).setPc (if rd = rs2 then u16 (s.pc.toNat + 2) else s.reg rs2)) := by
  have htarget : (s.setReg rd s.nextPc).reg rs2 = if rd = rs2 then u16 (s.pc.toNat + 2) else s.reg rs2 := by
    split_ifs with heq
    · rw [← heq, State.reg_setReg_same, nextPc_eq_u16]
    · exact State.reg_setReg_other s _ (Ne.symm heq)
  rw [← htarget]; rfl

/-! ### The statements -/

/-- Settles O33: R103's row and the comparison `LTU` of R92, written out as 1 or 0. -/
theorem sltuWritesTheUnsignedComparison : Obligations.SltuWritesTheUnsignedComparison :=
  ⟨encodedAs_registerPair .sltu rfl fun w h4 h3 => by simp [decodeR, h4, h3],
    fun rd rs2 s => completesWriting_of_writeResult (exec_sltu_eq rd rs2 s)⟩

/-- Settles O36: R106's row and the signed quotient, with the amount of R104. -/
theorem sraShiftsTheSignedValueByTheLowFourBits : Obligations.SraShiftsTheSignedValueByTheLowFourBits :=
  ⟨encodedAs_registerPair .sra rfl fun w h4 h3 => by simp [decodeR, h4, h3],
    fun rd rs2 s => completesWriting_of_writeResult (exec_sra_eq rd rs2 s)⟩

/-- Settles O37: the three rows, and each bit of the bitwise operation. -/
theorem orAndXorCombineBitByBit : Obligations.OrAndXorCombineBitByBit := by
  refine ⟨?orRow, ?andRow, ?xorRow, fun rd rs2 s => ⟨?or, ?and, ?xor⟩⟩
  case orRow => exact encodedAs_registerPair .or rfl fun w h4 h3 => by simp [decodeR, h4, h3]
  case andRow => exact encodedAs_registerPair .and rfl fun w h4 h3 => by simp [decodeR, h4, h3]
  case xorRow => exact encodedAs_registerPair .xor rfl fun w h4 h3 => by simp [decodeR, h4, h3]
  case or => exact ⟨_, completesWriting_of_writeResult (exec_or_eq rd rs2 s), fun _ => BitVec.getLsbD_or⟩
  case and => exact ⟨_, completesWriting_of_writeResult (exec_and_eq rd rs2 s), fun _ => BitVec.getLsbD_and⟩
  case xor => exact ⟨_, completesWriting_of_writeResult (exec_xor_eq rd rs2 s), fun _ => by simp⟩

/-- Settles O39: the row of `jr`, whatever its `rs2` field, and the copy into `pc`. -/
theorem jrJumpsToTheRegister : Obligations.JrJumpsToTheRegister := by
  refine ⟨encodedAs_r fun w h0 h3 h4 => ?row, fun rd s => completesAt_of_setPc (exec_jr_eq rd s)⟩
  case row =>
    rw [decodeFields_of_opField_zero h0, regAt_six]
    simp [decodeR, h4, h3]

/-- Settles O40: the row of `jalr`; the link is that of `jal`, and the target is read when the link is written. -/
theorem jalrLinksThenReadsTheTarget : Obligations.JalrLinksThenReadsTheTarget :=
  ⟨encodedAs_registerPair .jalr rfl fun w h4 h3 => by simp [decodeR, h4, h3],
    fun rd rs2 s => linksAndJumps_of_setReg_setPc (exec_jalr_eq rd rs2 s)⟩

end Sys2Proof.Safety
end

section
/-! PROOFS. The I-type instructions that rest on the spec's decisions (42_i_type.md): R121, R122 and R126 to R128. -/

namespace Sys2Proof.Safety

open Sys2Proof.Machine

/-! ### The immediate's word -/

/-- The word of an immediate of the format has the immediate as its signed reading. -/
theorem signed_immOperand {simm : Int} (hlo : -64 ≤ simm) (hhi : simm ≤ 63) : signed (immOperand simm) = simm :=
  signed_u16 (by omega) (by omega)

/-- Its unsigned reading is the immediate, or 65536 more when that is negative (conflict C3). -/
theorem immOperand_toNat {simm : Int} (hlo : -64 ≤ simm) (hhi : simm ≤ 63) :
    ((immOperand simm).toNat : Int) = if 0 ≤ simm then simm else 65536 + simm := by
  rw [immOperand, u16_toNat]
  split_ifs <;> omega

/-! ### The comparisons with an immediate -/

theorem aluLTS_immOperand (a : Word) {simm : Int} (hlo : -64 ≤ simm) (hhi : simm ≤ 63) :
    aluLTS a (immOperand simm) = if signed a < simm then 1#16 else 0#16 := by
  rw [aluLTS_eq_ite, signed_immOperand hlo hhi]

theorem aluLTU_immOperand (a : Word) {simm : Int} (hlo : -64 ≤ simm) (hhi : simm ≤ 63) :
    aluLTU a (immOperand simm) = if (a.toNat : Int) < (if 0 ≤ simm then simm else 65536 + simm) then 1#16 else 0#16 := by
  simp only [aluLTU_eq_ite, ← immOperand_toNat hlo hhi, Int.ofNat_lt]

/-! ### The meaning of each instruction as the arithmetic of its rule -/

theorem exec_slti_eq (rd : Reg) {simm : Int} (s : State) (hlo : -64 ≤ simm) (hhi : simm ≤ 63) :
    exec (.slti rd simm) s = writeResult rd (if signed (s.reg rd) < simm then 1#16 else 0#16) s := by
  rw [← aluLTS_immOperand _ hlo hhi]; rfl

theorem exec_sltui_eq (rd : Reg) {simm : Int} (s : State) (hlo : -64 ≤ simm) (hhi : simm ≤ 63) :
    exec (.sltui rd simm) s =
      writeResult rd (if ((s.reg rd).toNat : Int) < (if 0 ≤ simm then simm else 65536 + simm) then 1#16 else 0#16) s := by
  rw [← aluLTU_immOperand _ hlo hhi]; rfl

theorem exec_ori_eq (rd : Reg) (simm : Int) (s : State) :
    exec (.ori rd simm) s = writeResult rd (s.reg rd ||| immOperand simm) s := rfl

theorem exec_andi_eq (rd : Reg) (simm : Int) (s : State) :
    exec (.andi rd simm) s = writeResult rd (s.reg rd &&& immOperand simm) s := rfl

theorem exec_xori_eq (rd : Reg) (simm : Int) (s : State) :
    exec (.xori rd simm) s = writeResult rd (s.reg rd ^^^ immOperand simm) s := rfl

/-! ### The statements -/

/-- Settles O42: R121's row and the comparison `LTS` with the immediate, whose word reads back as the immediate. -/
theorem sltiWritesTheSignedComparison : Obligations.SltiWritesTheSignedComparison :=
  ⟨encodedAs_signedImmediate .slti rfl fun w h3 => by simp [decodeI, h3],
    fun rd _ s hlo hhi => completesWriting_of_writeResult (exec_slti_eq rd s hlo hhi)⟩

/-- Settles O43: R122's row and the comparison `LTU` with the immediate's word, read as unsigned. -/
theorem sltuiComparesAgainstTheSignExtendedImmediate : Obligations.SltuiComparesAgainstTheSignExtendedImmediate :=
  ⟨encodedAs_signedImmediate .sltui rfl fun w h3 => by simp [decodeI, h3],
    fun rd _ s hlo hhi => completesWriting_of_writeResult (exec_sltui_eq rd s hlo hhi)⟩

/-- Settles O45: the three rows, and each bit of the bitwise operation with the immediate's word. -/
theorem oriAndiXoriCombineWithTheSignExtendedImmediate : Obligations.OriAndiXoriCombineWithTheSignExtendedImmediate := by
  refine ⟨?oriRow, ?andiRow, ?xoriRow, fun rd simm s hlo hhi =>
    ⟨immOperand simm, signed_immOperand hlo hhi, ?ori, ?andi, ?xori⟩⟩
  case oriRow => exact encodedAs_signedImmediate .ori rfl fun w h3 => by simp [decodeI, h3]
  case andiRow => exact encodedAs_signedImmediate .andi rfl fun w h3 => by simp [decodeI, h3]
  case xoriRow => exact encodedAs_signedImmediate .xori rfl fun w h3 => by simp [decodeI, h3]
  case ori => exact ⟨_, completesWriting_of_writeResult (exec_ori_eq rd simm s), fun _ => BitVec.getLsbD_or⟩
  case andi => exact ⟨_, completesWriting_of_writeResult (exec_andi_eq rd simm s), fun _ => BitVec.getLsbD_and⟩
  case xori => exact ⟨_, completesWriting_of_writeResult (exec_xori_eq rd simm s), fun _ => by simp⟩

end Sys2Proof.Safety
end

section
/-! PROOFS. B-type instructions (43_b_type.md): the decoder's rule for a comparison branch and for a zero-test branch, each
condition as the comparison it names, then R140 to R150. Last `j` (46_j_type.md R181), the jump without a condition. -/

namespace Sys2Proof.Safety

open Sys2Proof.Machine

/-! ### Decoding a row of the B format -/

theorem decodeFields_of_opField_two {w : Word} (h : opField w = 2#3) : decodeFields w = decodeB w := by
  simp [decodeFields, h]

/-- A row with two register fields: what is left to say is which instruction `decodeB` reads from the `funct3` of the row's
pattern. -/
theorem encodedAs_comparisonBranch {pat : Word} (c : Reg → Reg → Int → Instr) (hop : pat.extractLsb' 0 3 = 2#3)
    (hrow : ∀ w, funct3Field w = pat.extractLsb' 3 3 → decodeB w = some (c (reg86 w) (reg119 w) (off4Field w))) :
    encodedAs 0x003F#16 pat (fun w => c (regAt w 6) (regAt w 9) (sext 4 (slice w 15 12))) :=
  encodedAs_funct3 fun w h0 h3 => by
    rw [decodeFields_of_opField_two (h0.trans hop), hrow w h3, regAt_six, regAt_nine, sext_four]

/-- A row whose `rs2` field is ignored (R67). -/
theorem encodedAs_zeroTestBranch {pat : Word} (c : Reg → Int → Instr) (hop : pat.extractLsb' 0 3 = 2#3)
    (hrow : ∀ w, funct3Field w = pat.extractLsb' 3 3 → decodeB w = some (c (reg86 w) (off4Field w))) :
    encodedAs 0x003F#16 pat (fun w => c (regAt w 6) (sext 4 (slice w 15 12))) :=
  encodedAs_funct3 fun w h0 h3 => by
    rw [decodeFields_of_opField_two (h0.trans hop), hrow w h3, regAt_six, sext_four]

/-! ### A branch completes at its target or at the next instruction -/

/-- A branch whose condition says `p` goes to its target when `p` holds. -/
theorem completesAt_of_branchTo {i : Instr} {taken : Bool} {target : Word} {s : State} (p : Prop) [Decidable p]
    (h : exec i s = branchTo taken target s) (hp : taken = true ↔ p) :
    completesAt i (if p then target else u16 (s.pc.toNat + 2)) s := by
  rw [branchTo_eq, nextPc_eq_u16] at h
  simp only [hp] at h
  exact completesAt_of_setPc h

theorem condEq_iff (a b : Word) : condEq a b = true ↔ a = b := by simp [condEq]

theorem condNe_iff (a b : Word) : condNe a b = true ↔ a ≠ b := by simp [condNe, condEq]

theorem condLt_iff (a b : Word) : condLt a b = true ↔ signed a < signed b := by simp [condLt, lessSigned]

theorem condGe_iff (a b : Word) : condGe a b = true ↔ signed a ≥ signed b := by simp [condGe, lessSigned]

theorem condLtu_iff (a b : Word) : condLtu a b = true ↔ a.toNat < b.toNat := by simp [condLtu, lessUnsigned]

theorem condGeu_iff (a b : Word) : condGeu a b = true ↔ a.toNat ≥ b.toNat := by simp [condGeu, lessUnsigned]

theorem condZero_iff (a : Word) : condZero a = true ↔ a.toNat = 0 := by
  rw [condZero, decide_eq_true_iff, ← BitVec.toNat_inj]; rfl

theorem condNotZero_iff (a : Word) : condNotZero a = true ↔ a.toNat ≠ 0 := by
  rw [condNotZero, Bool.not_eq_true', ← Bool.not_eq_true, condZero_iff]

/-! ### The statements -/

/-- Settles O47: the six rows, and each condition with the target that adds 2. -/
theorem comparisonBranchesAddTwoWhenTaken : Obligations.ComparisonBranchesAddTwoWhenTaken := by
  refine ⟨?beqRow, ?bneRow, ?bltRow, ?bgeRow, ?bltuRow, ?bgeuRow, fun rs1 rs2 boff s => ⟨?beq, ?bne, ?blt, ?bge, ?bltu, ?bgeu⟩⟩
  case beqRow => exact encodedAs_comparisonBranch .beq rfl fun w h3 => by simp [decodeB, h3]
  case bneRow => exact encodedAs_comparisonBranch .bne rfl fun w h3 => by simp [decodeB, h3]
  case bltRow => exact encodedAs_comparisonBranch .blt rfl fun w h3 => by simp [decodeB, h3]
  case bgeRow => exact encodedAs_comparisonBranch .bge rfl fun w h3 => by simp [decodeB, h3]
  case bltuRow => exact encodedAs_comparisonBranch .bltu rfl fun w h3 => by simp [decodeB, h3]
  case bgeuRow => exact encodedAs_comparisonBranch .bgeu rfl fun w h3 => by simp [decodeB, h3]
  case beq => exact completesAt_of_branchTo _ rfl (condEq_iff _ _)
  case bne => exact completesAt_of_branchTo _ rfl (condNe_iff _ _)
  case blt => exact completesAt_of_branchTo _ rfl (condLt_iff _ _)
  case bge => exact completesAt_of_branchTo _ rfl (condGe_iff _ _)
  case bltu => exact completesAt_of_branchTo _ rfl (condLtu_iff _ _)
  case bgeu => exact completesAt_of_branchTo _ rfl (condGeu_iff _ _)

/-- Settles O48: the two rows, and each condition with the target that adds nothing. -/
theorem zeroTestBranchesAddNoTwo : Obligations.ZeroTestBranchesAddNoTwo := by
  refine ⟨?bzRow, ?bnzRow, fun rs1 boff s => ⟨?bz, ?bnz⟩⟩
  case bzRow => exact encodedAs_zeroTestBranch .bz rfl fun w h3 => by simp [decodeB, h3]
  case bnzRow => exact encodedAs_zeroTestBranch .bnz rfl fun w h3 => by simp [decodeB, h3]
  case bz => exact completesAt_of_branchTo _ rfl (condZero_iff _)
  case bnz => exact completesAt_of_branchTo _ rfl (condNotZero_iff _)

/-! ### The jump -/

theorem decodeJ_of_fField_zero {w : Word} (h : fField w = 0#1) : decodeJ w = some (.j (imm9Field w).toInt) := by
  simp [decodeJ, h]

/-- Settles O54: the row of `j`, whatever its `rd` field, and the target. -/
theorem jJumpsByTwiceTheImmediate : Obligations.JJumpsByTwiceTheImmediate := by
  refine ⟨encodedAs_f fun w h0 hf => ?row, fun jimm s => completesAt_of_setPc rfl⟩
  case row => rw [decodeFields_of_opField_five h0, decodeJ_of_fField_zero hf, sext_nine]

end Sys2Proof.Safety
end

section
/-! PROOFS. S-type and L-type instructions (44_s_type.md, 45_l_type.md): the decoder's rule for a row of each format, the access
inside and outside memory, then R161, R162 and R171 to R173, and the store that the next fetch reads (20_memory.md R48). -/

namespace Sys2Proof.Safety

open Sys2Proof.Machine

/-! ### Decoding a row of the S and the L format -/

theorem decodeFields_of_opField_three {w : Word} (h : opField w = 3#3) : decodeFields w = decodeS w := by
  simp [decodeFields, h]

theorem decodeFields_of_opField_four {w : Word} (h : opField w = 4#3) : decodeFields w = decodeL w := by
  simp [decodeFields, h]

/-- A row of the S format: the value's register is `w[11:9]`, the base `w[8:6]` (R55). -/
theorem encodedAs_store {pat : Word} (c : Reg → Reg → Int → Instr) (hop : pat.extractLsb' 0 3 = 3#3)
    (hrow : ∀ w, funct3Field w = pat.extractLsb' 3 3 → decodeS w = some (c (reg119 w) (reg86 w) (off4Field w))) :
    encodedAs 0x003F#16 pat (fun w => c (regAt w 9) (regAt w 6) (sext 4 (slice w 15 12))) :=
  encodedAs_funct3 fun w h0 h3 => by
    rw [decodeFields_of_opField_three (h0.trans hop), hrow w h3, regAt_six, regAt_nine, sext_four]

/-- A row of the L format: the destination is `w[8:6]`, the base `w[11:9]` (R56). -/
theorem encodedAs_load {pat : Word} (c : Reg → Reg → Int → Instr) (hop : pat.extractLsb' 0 3 = 4#3)
    (hrow : ∀ w, funct3Field w = pat.extractLsb' 3 3 → decodeL w = some (c (reg86 w) (reg119 w) (off4Field w))) :
    encodedAs 0x003F#16 pat (fun w => c (regAt w 6) (regAt w 9) (sext 4 (slice w 15 12))) :=
  encodedAs_funct3 fun w h0 h3 => by
    rw [decodeFields_of_opField_four (h0.trans hop), hrow w h3, regAt_six, regAt_nine, sext_four]

/-! ### A store and a load by the answer of their access -/

theorem storeResult_of_ok {write : Except Fault Memory} {m : Memory} (s : State) (h : write = .ok m) :
    storeResult write s = .next (s.setMem m).advance := by
  rw [h]; rfl

theorem storeResult_of_error {write : Except Fault Memory} {f : Fault} (s : State) (h : write = .error f) :
    storeResult write s = .fault f := by
  rw [h]; rfl

theorem loadResult_of_ok {read : Except Fault Word} {v : Word} (rd : Reg) (s : State) (h : read = .ok v) :
    loadResult rd read s = writeResult rd v s := by
  rw [h]; rfl

theorem loadResult_of_error {read : Except Fault Word} {f : Fault} (rd : Reg) (s : State) (h : read = .error f) :
    loadResult rd read s = .fault f := by
  rw [h]; rfl

/-! ### The stores -/

theorem exec_sb_eq (rs2 rs1 : Reg) (moff : Int) (s : State) :
    exec (.sb rs2 rs1 moff) s = storeResult (memWrite8 s.mem (effectiveAddress rs1 moff s) (s.reg rs2)) s := rfl

theorem exec_sw_eq (rs2 rs1 : Reg) (moff : Int) (s : State) :
    exec (.sw rs2 rs1 moff) s = storeResult (memWrite16 s.mem (effectiveAddress rs1 moff s) (s.reg rs2)) s := rfl

/-- Settles O49: the row of `sb`, the byte it writes and the bytes it leaves, and the refused write. -/
theorem sbStoresTheLowByte : Obligations.SbStoresTheLowByte := by
  refine ⟨encodedAs_store .sb rfl fun w h3 => by simp [decodeS, h3],
    fun rs2 rs1 moff s => ⟨rfl, fun hlo hhi => ?inside, fun h => ?outside⟩⟩
  case inside =>
    have hw := memWrite8_of_inBounds s.mem (s.reg rs2) ((inBounds_eq_true_iff (effectiveAddress rs1 moff s) 0).mpr (by omega))
    refine ⟨_, (exec_sb_eq rs2 rs1 moff s).trans (storeResult_of_ok s hw), ?_, nextPc_eq_u16 s,
      fun a => get_memWrite8_outside hw, fun _ _ => rfl, rfl, rfl, rfl, rfl⟩
    rw [State.byteAt_advance, State.byteAt_eq, State.setMem_mem, Memory.get_set_same, lowByte_toNat]
  case outside =>
    exact (exec_sb_eq rs2 rs1 moff s).trans <| storeResult_of_error s <|
      (memWrite8_of_not_inBounds _ _ ((inBounds_eq_false_iff _ 0).mpr (by omega)))

/-- Settles O50: the row of `sw`, the two bytes it writes and the bytes it leaves, and the refused write. -/
theorem swStoresTheWordLittleEndian : Obligations.SwStoresTheWordLittleEndian := by
  refine ⟨encodedAs_store .sw rfl fun w h3 => by simp [decodeS, h3],
    fun rs2 rs1 moff s => ⟨rfl, fun hlo hhi => ?inside, fun h => ?outside⟩⟩
  case inside =>
    have hw := memWrite16_of_inBounds s.mem (s.reg rs2) ((inBounds_eq_true_iff (effectiveAddress rs1 moff s) 1).mpr ⟨hlo, hhi⟩)
    refine ⟨_, (exec_sw_eq rs2 rs1 moff s).trans (storeResult_of_ok s hw), ?low, ?high, nextPc_eq_u16 s,
      fun a => get_memWrite16_outside hw, fun _ _ => rfl, rfl, rfl, rfl, rfl⟩
    case low => exact (congrArg BitVec.toNat (memWrite16_get_low hw)).trans (lowByte_toNat _)
    case high => exact (congrArg BitVec.toNat (memWrite16_get_high hw)).trans (highByte_toNat _)
  case outside =>
    exact (exec_sw_eq rs2 rs1 moff s).trans <| storeResult_of_error s <|
      (memWrite16_of_not_inBounds _ _ ((inBounds_eq_false_iff _ 1).mpr h))

/-- Settles O29: the store's `pc + 2` does not wrap here, so the new `pc` is the address of the word just written. -/
theorem storeIntoTheNextWordIsFetchedNext : Obligations.StoreIntoTheNextWordIsFetchedNext := by
  intro s rs2 rs1 moff hea hpc
  have hw := memWrite16_of_inBounds s.mem (s.reg rs2) ((inBounds_eq_true_iff (effectiveAddress rs1 moff s) 1).mpr (by omega))
  have hnext : (s.nextPc.toNat : Int) = effectiveAddress rs1 moff s := by
    rw [nextPc_eq_u16, u16_toNat]
    omega
  refine ⟨_, (exec_sw_eq rs2 rs1 moff s).trans (storeResult_of_ok s hw), ?_⟩
  rw [State.advance_pc, State.advance_mem, State.setMem_mem]
  exact (congrArg _ hnext).trans (memRead16_memWrite16 hw)

/-! ### The loads -/

theorem signExtendByte_eq_u16 (b : Byte) : signExtendByte b = u16 (sext 8 b.toNat) := by
  rw [sext_toNat (by decide)]; rfl

theorem zeroExtendByte_eq_u16 (b : Byte) : zeroExtendByte b = u16 b.toNat := by
  rw [u16_natCast, BitVec.ofNat_toNat]; rfl

theorem wordOfBytes_eq_u16 (lo hi : Byte) : wordOfBytes lo hi = u16 (lo.toNat + 256 * hi.toNat) := by
  have h := u16_natCast (wordOfBytes lo hi).toNat
  rw [BitVec.ofNat_toNat, BitVec.setWidth_eq, wordOfBytes_toNat] at h
  exact_mod_cast h.symm

theorem exec_lb_eq (rd rs2 : Reg) (moff : Int) (s : State) :
    exec (.lb rd rs2 moff) s = loadResult rd ((memRead8 s.mem (effectiveAddress rs2 moff s)).map signExtendByte) s := rfl

theorem exec_lbu_eq (rd rs2 : Reg) (moff : Int) (s : State) :
    exec (.lbu rd rs2 moff) s = loadResult rd ((memRead8 s.mem (effectiveAddress rs2 moff s)).map zeroExtendByte) s := rfl

theorem exec_lw_eq (rd rs2 : Reg) (moff : Int) (s : State) :
    exec (.lw rd rs2 moff) s = loadResult rd (memRead16 s.mem (effectiveAddress rs2 moff s)) s := rfl

/-- A byte load inside and outside memory, whichever way the byte is extended. -/
theorem byteLoad_completes_or_faults {i : Instr} {rd base : Reg} {moff : Int} {s : State} {extend : Byte → Word}
    (h : exec i s = loadResult rd ((memRead8 s.mem (effectiveAddress base moff s)).map extend) s) :
    (0 ≤ effectiveAddress base moff s → effectiveAddress base moff s ≤ 65535 →
      completesWriting i rd (extend (s.byteAt (effectiveAddress base moff s).toNat)) s) ∧
    (effectiveAddress base moff s < 0 ∨ effectiveAddress base moff s > 65535 →
      exec i s = .fault (.memoryBounds (effectiveAddress base moff s) 1)) := by
  refine ⟨fun hlo hhi => ?inside, fun hout => ?outside⟩
  case inside =>
    have hread := memRead8_of_inBounds s.mem ((inBounds_eq_true_iff (effectiveAddress base moff s) 0).mpr (by omega))
    exact completesWriting_of_writeResult (h.trans (loadResult_of_ok rd s ((map_ok_iff _ _ _).mpr ⟨_, hread, rfl⟩)))
  case outside =>
    have hread := memRead8_of_not_inBounds s.mem ((inBounds_eq_false_iff (effectiveAddress base moff s) 0).mpr (by omega))
    exact h.trans (loadResult_of_error rd s ((map_error_iff _ _ _).mpr hread))

/-- Settles O51: the row of `lb`, and the byte load that extends by the sign. -/
theorem lbLoadsTheSignExtendedByte : Obligations.LbLoadsTheSignExtendedByte := by
  refine ⟨encodedAs_load .lb rfl fun w h3 => by simp [decodeL, h3], fun rd rs2 moff s => ⟨rfl, ?_⟩⟩
  rw [← signExtendByte_eq_u16]
  exact byteLoad_completes_or_faults (exec_lb_eq rd rs2 moff s)

/-- Settles O53: the row of `lbu`, and the byte load that extends by zeros. -/
theorem lbuLoadsTheZeroExtendedByte : Obligations.LbuLoadsTheZeroExtendedByte := by
  refine ⟨encodedAs_load .lbu rfl fun w h3 => by simp [decodeL, h3], fun rd rs2 moff s => ⟨rfl, ?_⟩⟩
  rw [← zeroExtendByte_eq_u16]
  exact byteLoad_completes_or_faults (exec_lbu_eq rd rs2 moff s)

/-- Settles O52: the row of `lw`, the word of the two bytes, low byte first, and the refused read. -/
theorem lwLoadsTheWordLittleEndian : Obligations.LwLoadsTheWordLittleEndian := by
  refine ⟨encodedAs_load .lw rfl fun w h3 => by simp [decodeL, h3],
    fun rd rs2 moff s => ⟨rfl, fun hlo hhi => ?inside, fun h => ?outside⟩⟩
  case inside =>
    have hread := memRead16_of_inBounds s.mem ((inBounds_eq_true_iff (effectiveAddress rs2 moff s) 1).mpr ⟨hlo, hhi⟩)
    rw [← wordOfBytes_eq_u16]
    exact completesWriting_of_writeResult ((exec_lw_eq rd rs2 moff s).trans (loadResult_of_ok rd s hread))
  case outside =>
    have hread := memRead16_of_not_inBounds s.mem ((inBounds_eq_false_iff (effectiveAddress rs2 moff s) 1).mpr h)
    exact (exec_lw_eq rd rs2 moff s).trans (loadResult_of_error rd s hread)

end Sys2Proof.Safety
end

section
/-! PROOFS. The environment call (48_sys.md): the decimal text of R202 and R205, the string of R204, and the services of R200. -/

namespace Sys2Proof.Safety

open Sys2Proof.Machine

/-! ### Decimal text, digit by digit -/

/-- The character of the last decimal digit of `n`. -/
def lastDigit (n : Nat) : Byte := BitVec.ofNat 8 (48 + n % 10)

theorem lastDigit_toNat (n : Nat) : (lastDigit n).toNat = 48 + n % 10 := by
  rw [lastDigit, BitVec.toNat_ofNat]
  omega

theorem decimalFrom_succ (fuel n : Nat) (acc : List Byte) :
    decimalFrom (fuel + 1) n acc = if n / 10 = 0 then lastDigit n :: acc else decimalFrom fuel (n / 10) (lastDigit n :: acc) := rfl

theorem decimalFrom_append (fuel n : Nat) (acc : List Byte) : decimalFrom fuel n acc = decimalFrom fuel n [] ++ acc := by
  induction fuel generalizing n acc with
  | zero => rfl
  | succ fuel ih =>
    rw [decimalFrom_succ, decimalFrom_succ]
    split_ifs
    · rfl
    · rw [ih (n / 10) (lastDigit n :: acc), ih (n / 10) [lastDigit n], List.append_assoc, List.singleton_append]

/-- Any fuel above `n` is enough for its digits. -/
theorem decimalFrom_fuel {fuel fuel' n : Nat} (acc : List Byte) (h : n < fuel) (h' : n < fuel') :
    decimalFrom fuel n acc = decimalFrom fuel' n acc := by
  induction fuel generalizing fuel' n acc with
  | zero => omega
  | succ fuel ih =>
    obtain ⟨k, rfl⟩ := Nat.exists_eq_add_one_of_ne_zero (Nat.ne_zero_of_lt h')
    rw [decimalFrom_succ, decimalFrom_succ]
    split_ifs
    · rfl
    · exact ih _ (by omega) (by omega)

theorem decimalBytes_of_lt_ten {n : Nat} (h : n < 10) : decimalBytes n = [lastDigit n] := by
  rw [decimalBytes, decimalFrom_succ, if_pos (Nat.div_eq_of_lt h)]

/-- A number of more than one digit is printed as its tenth part and then its last digit. -/
theorem decimalBytes_of_ten_le {n : Nat} (h : 10 ≤ n) : decimalBytes n = decimalBytes (n / 10) ++ [lastDigit n] := by
  rw [decimalBytes, decimalFrom_succ, if_neg (by omega), decimalFrom_append, decimalBytes,
    decimalFrom_fuel [] (show n / 10 < n by omega) (Nat.lt_succ_self _)]

/-- Induction over the decimal digits of a number. -/
theorem decimal_induction {P : Nat → Prop} (single : ∀ n < 10, P n) (more : ∀ n, 10 ≤ n → P (n / 10) → P n) (n : Nat) : P n := by
  induction n using Nat.strong_induction_on with
  | h n ih =>
    rcases Nat.lt_or_ge n 10 with h | h
    · exact single n h
    · exact more n h (ih (n / 10) (by omega))

theorem denotes_append_lastDigit (ds : List Byte) (n : Nat) : denotes (ds ++ [lastDigit n]) = denotes ds * 10 + n % 10 := by
  simp [denotes, lastDigit_toNat]

theorem denotes_decimalBytes (n : Nat) : denotes (decimalBytes n) = n := by
  induction n using decimal_induction with
  | single n h =>
    have := denotes_append_lastDigit [] n
    rw [decimalBytes_of_lt_ten h]
    exact this.trans (by simp [denotes, Nat.mod_eq_of_lt h])
  | more n h ih =>
    rw [decimalBytes_of_ten_le h, denotes_append_lastDigit, ih]
    omega

theorem decimalBytes_digits (n : Nat) : ∀ d ∈ decimalBytes n, 48 ≤ d.toNat ∧ d.toNat ≤ 57 := by
  have hlast : ∀ k, ∀ d ∈ [lastDigit k], 48 ≤ d.toNat ∧ d.toNat ≤ 57 := by
    intro k d hd
    rw [List.mem_singleton.mp hd, lastDigit_toNat]
    omega
  induction n using decimal_induction with
  | single n h =>
    rw [decimalBytes_of_lt_ten h]
    exact hlast n
  | more n h ih =>
    rw [decimalBytes_of_ten_le h]
    exact fun d hd => (List.mem_append.mp hd).elim (ih d) (hlast n d)

/-- The first character of a number that is not 0 is not the character of 0. -/
theorem decimalBytes_head {n : Nat} (hn : n ≠ 0) : ∃ d ds, decimalBytes n = d :: ds ∧ d ≠ 48#8 := by
  induction n using decimal_induction with
  | single n h =>
    refine ⟨_, _, decimalBytes_of_lt_ten h, fun heq => ?_⟩
    have hnat : 48 + n % 10 = 48 := (lastDigit_toNat n).symm.trans (congrArg BitVec.toNat heq)
    omega
  | more n h ih =>
    obtain ⟨d, ds, heq, hd⟩ := ih (by omega)
    exact ⟨d, ds ++ [lastDigit n], by rw [decimalBytes_of_ten_le h, heq, List.cons_append], hd⟩

/-- Settles O60: by induction over the decimal digits. -/
theorem decimalTextDenotesTheNumber : Obligations.DecimalTextDenotesTheNumber := by
  refine ⟨fun n => ⟨denotes_decimalBytes n, decimalBytes_digits n, fun hn => ?head, ?zero⟩, fun v hv => ?nonneg, fun v hv => ?neg⟩
  case head =>
    obtain ⟨d, ds, heq, hd⟩ := decimalBytes_head hn
    rw [heq]
    exact fun h => hd (Option.some.inj h)
  case zero => rintro rfl; rfl
  case nonneg => rw [decimalIntBytes, if_neg (by omega), show v.natAbs = v.toNat by omega]
  case neg => rw [decimalIntBytes, if_pos hv, show v.natAbs = (-v).toNat by omega]; rfl

/-! ### The string of service 5 -/

theorem readStringFrom_of_zero {m : Memory} {left a : Nat} (ha : a < 65536) (hz : m.get a = 0#8) :
    readStringFrom m (left + 1) a = .ok [] := by
  rw [readStringFrom_succ ha, if_pos hz]

theorem readStringFrom_of_ne_zero {m : Memory} {left a : Nat} (ha : a < 65536) (hz : m.get a ≠ 0#8) :
    readStringFrom m (left + 1) a = (readStringFrom m left (a + 1)).map (m.get a :: ·) := by
  rw [readStringFrom_succ ha, if_neg hz]

/-- The bytes before the first zero byte, which is at `a + n`. -/
theorem readStringFrom_terminated {m : Memory} (n : Nat) {left a : Nat} (hleft : a + left = 65536) (hn : a + n ≤ 65535)
    (hz : m.get (a + n) = 0#8) (hne : ∀ k < n, m.get (a + k) ≠ 0#8) :
    readStringFrom m left a = .ok ((List.range n).map fun k => m.get (a + k)) := by
  induction n generalizing a left with
  | zero =>
    obtain ⟨rest, rfl⟩ := Nat.exists_eq_add_one_of_ne_zero (show left ≠ 0 by omega)
    exact readStringFrom_of_zero (by omega) hz
  | succ n ih =>
    obtain ⟨rest, rfl⟩ := Nat.exists_eq_add_one_of_ne_zero (show left ≠ 0 by omega)
    have hstep : ∀ k, a + 1 + k = a + (k + 1) := by omega
    have htail : readStringFrom m rest (a + 1) = .ok ((List.range n).map fun k => m.get (a + 1 + k)) :=
      ih (by omega) (by omega) (by rwa [hstep]) fun k hk => by rw [hstep]; exact hne (k + 1) (by omega)
    have hfirst : m.get a ≠ 0#8 := hne 0 (Nat.succ_pos n)
    rw [readStringFrom_of_ne_zero (by omega) hfirst, htail]
    simp [Except.map, List.range_succ_eq_map, Function.comp_def, hstep]

/-- Without a zero byte the read runs past the end of memory. -/
theorem readStringFrom_unterminated {m : Memory} {left a : Nat} (hleft : a + left = 65536)
    (hne : ∀ b, a ≤ b → b ≤ 65535 → m.get b ≠ 0#8) : readStringFrom m left a = .error (.memoryBounds 65536 1) := by
  induction left generalizing a with
  | zero =>
    obtain rfl : a = 65536 := hleft
    exact readStringFrom_zero m 65536
  | succ left ih =>
    rw [readStringFrom_of_ne_zero (by omega) (hne a (le_refl a) (by omega)),
      ih (by omega) fun b hb => hne b (by omega)]
    rfl

/-- Settles O59: the read over all the bytes from `a0` to the end of memory. -/
theorem printStringReadsUpToTheZeroByte : Obligations.PrintStringReadsUpToTheZeroByte := by
  intro s a0
  have hleft : a0.toNat + (Config.memSize - a0.toNat) = 65536 := Nat.add_sub_of_le (Nat.le_of_lt a0.isLt)
  exact ⟨fun n hn hz hne => readStringFrom_terminated n hleft hn hz hne, fun hne => readStringFrom_unterminated hleft hne⟩

/-! ### The services -/

theorem decodeFields_of_opField_seven {w : Word} (h : opField w = 7#3) : decodeFields w = decodeSys w := by
  simp [decodeFields, h]

/-- The row of `ecall`: `op` = 111 and `funct3` = 000 (R60 row 41). -/
theorem encodedAs_ecall : encodedAs 0x003F#16 0x0007#16 (fun w => .ecall (slice w 15 6)) :=
  encodedAs_funct3 fun w h0 h3 => by
    rw [decodeFields_of_opField_seven h0, slice_service]
    simp [decodeSys, h3]

theorem exec_ecall_one (s : State) :
    exec (.ecall 1) s = .next (s.emit (.ecallOutput (.printInteger (signed (s.reg .a0))))).advance := rfl

theorem exec_ecall_three (s : State) : exec (.ecall 3) s = .next (s.emit (.ecallOutput .terminate)).haltRun := rfl

theorem exec_ecall_five_of_ok {s : State} {bs : List Byte} (h : readString s.mem (s.reg .a0) = .ok bs) :
    exec (.ecall 5) s = .next (s.emit (.ecallOutput (.printString bs))).advance := by
  change servicePrintString s = _
  rw [servicePrintString, h]

theorem exec_ecall_five_of_error {s : State} {f : Fault} (h : readString s.mem (s.reg .a0) = .error f) :
    exec (.ecall 5) s = .fault f := by
  change servicePrintString s = _
  rw [servicePrintString, h]

theorem exec_ecall_other {n : Nat} (s : State) (h1 : n ≠ 1) (h3 : n ≠ 3) (h5 : n ≠ 5) :
    exec (.ecall n) s = .next (s.emit (.ecallOutput (.other n))).advance := by
  simp [exec, execEcall, serviceOther]

/-- A service that emits an output and goes on: what it leaves. -/
theorem outputs_of_emit_advance {i : Instr} {s : State} {o : EcallOutput} {lines : List (List Byte)}
    (h : exec i s = .next (s.emit (.ecallOutput o)).advance) (hlines : o.lines = lines) :
    ∃ (t : State) (o : EcallOutput), exec i s = .next t ∧ t.events = s.events ++ [.ecallOutput o] ∧ o.lines = lines ∧
      t.pc = u16 (s.pc.toNat + 2) ∧ sameRegistersBut none s t ∧ sameMemory s t ∧
      t.programSize = s.programSize ∧ t.status = s.status ∧ t.icount = s.icount :=
  ⟨_, o, h, rfl, hlines, nextPc_eq_u16 s, fun _ _ => rfl, fun _ => rfl, rfl, rfl, rfl⟩

/-- Settles O58: the row of `ecall`, and each service with its lines. -/
theorem ecallPerformsItsService : Obligations.EcallPerformsItsService := by
  refine ⟨encodedAs_ecall, fun s => ⟨?printInteger, ?terminate, fun bs hbs => ?printString, fun f hf => ?unterminated,
    fun n h1 h3 h5 => ?other⟩⟩
  case printInteger => exact outputs_of_emit_advance (exec_ecall_one s) rfl
  case terminate => exact ⟨_, .terminate, exec_ecall_three s, rfl, rfl, rfl, fun _ _ => rfl, fun _ => rfl, rfl, rfl⟩
  case printString => exact outputs_of_emit_advance (exec_ecall_five_of_ok hbs) rfl
  case unterminated => exact exec_ecall_five_of_error hf
  case other => exact outputs_of_emit_advance (exec_ecall_other s h1 h3 h5) rfl

end Sys2Proof.Safety
end

section
/-! PROOFS. The decoder and the opcode map (30_encoding.md R60, R68): a decoded word lies in the row of its instruction, every row
decodes to its instruction, and what the family decoders reject is what R68 lists. -/

namespace Sys2Proof.Safety

open Sys2Proof.Machine

/-! ### The rows -/

/-- The word the encoder writes lies in the instruction's row. -/
theorem encode_rowMatches (i : Instr) : i.rowMatches (encode i) := by
  cases i
  case add | sub | slt | sltu | sll | srl | sra | or | and | xor | mv | jr | jalr => exact wordR_and _ _ _ _
  case addi | slti | sltui | ori | andi | xori | li => exact wordI_and _ _ _
  case slli | srli | srai => exact wordShift_and _ _ _
  case beq | bne | bz | bnz | blt | bge | bltu | bgeu | sb | sw | lb | lw | lbu => exact wordOff4_and _ _ _ _ _
  case j | jal | lui | auipc => exact wordImm9_and _ _ _ _
  case ecall => exact wordSys_and _ _

theorem fullMask_and (m : Word) : 0xFFFF#16 &&& m = m := by
  have hall : (0xFFFF#16 : Word) = BitVec.allOnes 16 := by decide
  rw [hall, BitVec.allOnes_and]

/-- No row selects by an ignored bit. -/
theorem careMask_and_rowMask (i : Instr) : i.careMask &&& i.row.mask = i.row.mask := by
  cases i
  case jr => exact (by decide : 0xF1FF#16 &&& 0xF03F#16 = 0xF03F#16)
  case bz | bnz => exact (by decide : 0xF1FF#16 &&& 0x003F#16 = 0x003F#16)
  case j => exact (by decide : 0xFE3F#16 &&& 0x8007#16 = 0x8007#16)
  all_goals exact fullMask_and _

/-- A decoded word lies in the row of its instruction, since its encoding does and differs in ignored bits only. -/
theorem rowMatches_of_decodeWord {w : Word} {i : Instr} (h : decodeWord w = .ok i) : i.rowMatches w := by
  obtain ⟨-, hencode⟩ := reencodes_of_decodeFields (decodeWord_eq_ok_iff.mp h)
  have hrow : encode i &&& i.row.mask = i.row.pattern := encode_rowMatches i
  rwa [hencode, BitVec.and_assoc, careMask_and_rowMask] at hrow

/-- Every row of the map is decoded as its own instruction; the rows are those of the statements about the instructions. -/
theorem row_encodedAs (i : Instr) : ∃ f : Word → Instr, encodedAs i.row.mask i.row.pattern f ∧ ∀ w, (f w).row = i.row := by
  obtain ⟨hor, hand, hxor, -⟩ := orAndXorCombineBitByBit
  obtain ⟨hslli, hsrli, hsrai, -⟩ := immediateShiftsShiftByShamt
  obtain ⟨hori, handi, hxori, -⟩ := oriAndiXoriCombineWithTheSignExtendedImmediate
  obtain ⟨hbeq, hbne, hblt, hbge, hbltu, hbgeu, -⟩ := comparisonBranchesAddTwoWhenTaken
  obtain ⟨hbz, hbnz, -⟩ := zeroTestBranchesAddNoTwo
  cases i
  case add => exact ⟨_, addWritesTheWrappedSum.1, fun _ => rfl⟩
  case sub => exact ⟨_, subWritesTheWrappedDifference.1, fun _ => rfl⟩
  case slt => exact ⟨_, sltWritesTheSignedComparison.1, fun _ => rfl⟩
  case sltu => exact ⟨_, sltuWritesTheUnsignedComparison.1, fun _ => rfl⟩
  case sll => exact ⟨_, sllShiftsLeftByTheLowFourBits.1, fun _ => rfl⟩
  case srl => exact ⟨_, srlShiftsRightByTheLowFourBits.1, fun _ => rfl⟩
  case sra => exact ⟨_, sraShiftsTheSignedValueByTheLowFourBits.1, fun _ => rfl⟩
  case or => exact ⟨_, hor, fun _ => rfl⟩
  case and => exact ⟨_, hand, fun _ => rfl⟩
  case xor => exact ⟨_, hxor, fun _ => rfl⟩
  case mv => exact ⟨_, mvCopiesTheRegister.1, fun _ => rfl⟩
  case jr => exact ⟨_, jrJumpsToTheRegister.1, fun _ => rfl⟩
  case jalr => exact ⟨_, jalrLinksThenReadsTheTarget.1, fun _ => rfl⟩
  case addi => exact ⟨_, addiWritesTheWrappedSum.1, fun _ => rfl⟩
  case slti => exact ⟨_, sltiWritesTheSignedComparison.1, fun _ => rfl⟩
  case sltui => exact ⟨_, sltuiComparesAgainstTheSignExtendedImmediate.1, fun _ => rfl⟩
  case slli => exact ⟨_, hslli, fun _ => rfl⟩
  case srli => exact ⟨_, hsrli, fun _ => rfl⟩
  case srai => exact ⟨_, hsrai, fun _ => rfl⟩
  case ori => exact ⟨_, hori, fun _ => rfl⟩
  case andi => exact ⟨_, handi, fun _ => rfl⟩
  case xori => exact ⟨_, hxori, fun _ => rfl⟩
  case li => exact ⟨_, liLoadsTheImmediate.1, fun _ => rfl⟩
  case beq => exact ⟨_, hbeq, fun _ => rfl⟩
  case bne => exact ⟨_, hbne, fun _ => rfl⟩
  case bz => exact ⟨_, hbz, fun _ => rfl⟩
  case bnz => exact ⟨_, hbnz, fun _ => rfl⟩
  case blt => exact ⟨_, hblt, fun _ => rfl⟩
  case bge => exact ⟨_, hbge, fun _ => rfl⟩
  case bltu => exact ⟨_, hbltu, fun _ => rfl⟩
  case bgeu => exact ⟨_, hbgeu, fun _ => rfl⟩
  case sb => exact ⟨_, sbStoresTheLowByte.1, fun _ => rfl⟩
  case sw => exact ⟨_, swStoresTheWordLittleEndian.1, fun _ => rfl⟩
  case lb => exact ⟨_, lbLoadsTheSignExtendedByte.1, fun _ => rfl⟩
  case lw => exact ⟨_, lwLoadsTheWordLittleEndian.1, fun _ => rfl⟩
  case lbu => exact ⟨_, lbuLoadsTheZeroExtendedByte.1, fun _ => rfl⟩
  case j => exact ⟨_, jJumpsByTwiceTheImmediate.1, fun _ => rfl⟩
  case jal => exact ⟨_, jalLinksAndJumps.1, fun _ => rfl⟩
  case lui => exact ⟨_, luiLoadsTheUpperConstant.1, fun _ => rfl⟩
  case auipc => exact ⟨_, auipcAddsTheUpperConstantToPc.1, fun _ => rfl⟩
  case ecall => exact ⟨_, encodedAs_ecall, fun _ => rfl⟩

/-- A word of a row is decoded as an instruction of that row. -/
theorem decodeWord_of_rowMatches {w : Word} {i : Instr} (h : i.rowMatches w) : ∃ k, decodeWord w = .ok k ∧ k.row = i.row := by
  obtain ⟨f, hf, hrow⟩ := row_encodedAs i
  exact ⟨f w, hf w h, hrow w⟩

/-- Settles O5; a word of two rows would be decoded as instructions of both, so the rows are one. -/
theorem decoderFollowsTheOpcodeMap : Obligations.DecoderFollowsTheOpcodeMap := by
  refine ⟨fun _ _ => rowMatches_of_decodeWord, fun _ _ => decodeWord_of_rowMatches, fun w i k hi hk => ?_⟩
  obtain ⟨i', hdi, hri⟩ := decodeWord_of_rowMatches hi
  obtain ⟨k', hdk, hrk⟩ := decodeWord_of_rowMatches hk
  cases hdi.symm.trans hdk
  exact hri.symm.trans hrk

/-! ### What the decoder rejects -/

theorem slice_op (w : Word) : slice w 2 0 = (opField w).toNat := by rw [opField, extractLsb'_toNat_div]; rfl

theorem slice_funct3 (w : Word) : slice w 5 3 = (funct3Field w).toNat := by rw [funct3Field, extractLsb'_toNat_div]; rfl

theorem slice_funct4 (w : Word) : slice w 15 12 = (funct4Field w).toNat := by rw [funct4Field, extractLsb'_toNat_div]; rfl

theorem slice_shsel (w : Word) : slice w 15 13 = (shselField w).toNat := by rw [shselField, extractLsb'_toNat_div]; rfl

theorem decodeR_eq_none_iff (w : Word) : decodeR w = none ↔ (slice w 15 12, slice w 5 3) ∉
    [(0, 0), (1, 0), (0, 1), (0, 2), (2, 3), (4, 3), (8, 3), (1, 4), (0, 5), (0, 6), (0, 7), (4, 0), (8, 0)] := by
  rw [slice_funct4, slice_funct3]
  unfold decodeR
  split <;> simp_all

theorem decodeI_eq_none_iff (w : Word) : decodeI w = none ↔ slice w 5 3 = 3 ∧ slice w 15 13 ∉ [1, 2, 4] := by
  rw [slice_funct3, slice_shsel]
  unfold decodeI
  split
  case h_4 h3 =>
    unfold decodeShift
    split <;> simp_all
  all_goals simp_all

theorem decodeB_ne_none (w : Word) : decodeB w ≠ none := by
  unfold decodeB
  split <;> nofun

theorem decodeS_eq_none_iff (w : Word) : decodeS w = none ↔ slice w 5 3 ∉ [0, 1] := by
  rw [slice_funct3]
  unfold decodeS
  split <;> simp_all

theorem decodeL_eq_none_iff (w : Word) : decodeL w = none ↔ slice w 5 3 ∉ [0, 1, 4] := by
  rw [slice_funct3]
  unfold decodeL
  split <;> simp_all

theorem decodeJ_ne_none (w : Word) : decodeJ w ≠ none := by
  unfold decodeJ
  split <;> nofun

theorem decodeU_ne_none (w : Word) : decodeU w ≠ none := by
  unfold decodeU
  split <;> nofun

theorem decodeSys_eq_none_iff (w : Word) : decodeSys w = none ↔ slice w 5 3 ≠ 0 := by
  rw [slice_funct3]
  unfold decodeSys
  split <;> simp_all

theorem decodeWord_eq_unknown_iff (w : Word) : decodeWord w = .error (.unknownEncoding w) ↔ decodeFields w = none := by
  rcases decodeWord_cases w with ⟨i, hf, hd⟩ | ⟨hf, hd⟩ <;> simp [hf, hd]

/-- Settles O6, family by family: `op` chooses the family, and each family decoder rejects what R68 lists for it. -/
theorem unknownEncodingsAreThoseOfTheTable : Obligations.UnknownEncodingsAreThoseOfTheTable := by
  intro w
  rw [decodeWord_eq_unknown_iff, slice_op]
  unfold decodeFields
  split
  case h_1 hop => simp only [hop, decodeR_eq_none_iff]; simp
  case h_2 hop => simp only [hop, decodeI_eq_none_iff]; simp
  case h_3 hop => simp [hop, decodeB_ne_none]
  case h_4 hop => simp only [hop, decodeS_eq_none_iff]; simp
  case h_5 hop => simp only [hop, decodeL_eq_none_iff]; simp
  case h_6 hop => simp [hop, decodeJ_ne_none]
  case h_7 hop => simp [hop, decodeU_ne_none]
  case h_8 h0 h1 h2 h3 h4 h5 h6 =>
    simp [toNat_eq_seven h0 h1 h2 h3 h4 h5 h6, decodeSys_eq_none_iff]

end Sys2Proof.Safety
end
